-- ==== Sys2Proof/Word.lean ====
section
/-! DEFINITION. The word of a bus and the signal value: the two number types every other file is written in. -/

namespace Sys2Proof

/-- The value of a Bus: 32 lines, line `i` is bit `i`, bit 0 the least significant (R6, R22, R70). -/
abbrev Word := BitVec 32

/-- A signal value, "a single bit, 0 or 1" (R21): `false` is 0 and `true` is 1. -/
abbrev Bit := Bool

end Sys2Proof
end

