-- ==== Sys2Proof/Machine/Gates.lean ====
section
/-! DEFINITION. The Gate Library (R90 to R96): six pure, total functions over bits, and their lookup constants (R81). -/

namespace Sys2Proof.Machine

open Sys2Proof

/-- `AND(a, b)` (R91). -/
def andGate : Bit → Bit → Bit
  | true, true => true
  | true, false => false
  | false, true => false
  | false, false => false

/-- `OR(a, b)` (R92). -/
def orGate : Bit → Bit → Bit
  | true, true => true
  | true, false => true
  | false, true => true
  | false, false => false

/-- `NAND(a, b)` (R93). -/
def nandGate : Bit → Bit → Bit
  | true, true => false
  | true, false => true
  | false, true => true
  | false, false => true

/-- `NOR(a, b)` (R94). -/
def norGate : Bit → Bit → Bit
  | true, true => false
  | true, false => false
  | false, true => false
  | false, false => true

/-- `XOR(a, b)` (R95). -/
def xorGate : Bit → Bit → Bit
  | true, true => false
  | true, false => true
  | false, true => true
  | false, false => false

/-- `FULLADD(cin, a, b)`, the pair of the sum and the carry-out (R96). -/
def fulladd : Bit → Bit → Bit → Bit × Bit
  | false, false, false => (false, false)
  | false, false, true => (true, false)
  | false, true, false => (true, false)
  | false, true, true => (false, true)
  | true, false, false => (true, false)
  | true, false, true => (false, true)
  | true, true, false => (false, true)
  | true, true, true => (true, true)

/-- The lookup constants of R81. A two-input gate's is indexed by `2a + b`, the full adder's by `4 cin + 2a + b`. -/
def andTable : BitVec 4 := 0b1000#4
/-- The lookup constant of OR (R81). -/
def orTable : BitVec 4 := 0b1110#4
/-- The lookup constant of NAND (R81). -/
def nandTable : BitVec 4 := 0b0111#4
/-- The lookup constant of NOR (R81). -/
def norTable : BitVec 4 := 0b0001#4
/-- The lookup constant of XOR (R81). -/
def xorTable : BitVec 4 := 0b0110#4
/-- The lookup constant of the full adder's sum (R81). -/
def fulladdSumTable : BitVec 8 := 0b10010110#8
/-- The lookup constant of the full adder's carry-out (R81). -/
def fulladdCarryTable : BitVec 8 := 0b11101000#8

/-- The place of a two-input gate's row in its lookup constant (R81). -/
def tableIndex2 (a b : Bit) : Nat := 2 * a.toNat + b.toNat

/-- The place of the full adder's row in its lookup constants (R81). -/
def tableIndex3 (cin a b : Bit) : Nat := 4 * cin.toNat + 2 * a.toNat + b.toNat

end Sys2Proof.Machine
end

