-- ==== Sys2Proof/Config.lean ====
section
/-! DEFINITION. What construction fixes and no transaction changes: the parameters of R5, the configuration of each
component kind (R29, R31, R32, R33), the legality of a configuration, the clock's bounds, and the reference circuit
`REF` of R78. -/

namespace Sys2Proof

/-- The four component kinds of a circuit (R20). -/
inductive Kind where
  | register | counter | memory | alu
  deriving DecidableEq, Repr

/-- A control-line index: `none` ("disabled") or a line number. A number of 32 or more is legal and inert (R72). -/
abbrev Line := Option Nat

/-- Configuration of a Register (R29). -/
structure RegisterCfg where
  width : Nat
  loadIndex : Line
  driveIndex : Line
  deriving DecidableEq, Repr

/-- Configuration of a Counter (R31). -/
structure CounterCfg where
  width : Nat
  loadIndex : Line
  incrementIndex : Line
  driveIndex : Line
  deriving DecidableEq, Repr

/-- Configuration of a Memory (R32): the address register is as wide as a cell. -/
structure MemoryCfg where
  width : Nat
  size : Nat
  addressLoadIndex : Line
  readIndex : Line
  writeIndex : Line
  deriving DecidableEq, Repr

/-- Configuration of an ALU (R33): `A`, `B` and `OUT` are of equal width. -/
structure AluCfg where
  width : Nat
  aLoadIndex : Line
  bLoadIndex : Line
  outDriveIndex : Line
  subIndex : Nat
  deriving DecidableEq, Repr

/-- Configuration of one component (R20). -/
inductive CompCfg where
  | register (c : RegisterCfg)
  | counter (c : CounterCfg)
  | memory (c : MemoryCfg)
  | alu (c : AluCfg)
  deriving DecidableEq, Repr

/-- The components of a circuit in construction order; a component is named by its place in this list (R20, R29). -/
abbrev Wiring := List CompCfg

/-- The kind of a component. -/
def CompCfg.kind : CompCfg → Kind
  | .register _ => .register
  | .counter _ => .counter
  | .memory _ => .memory
  | .alu _ => .alu

/-- The width parameter of a component, readable by the host (R172). -/
def CompCfg.width : CompCfg → Nat
  | .register c => c.width
  | .counter c => c.width
  | .memory c => c.width
  | .alu c => c.width

/-- The parameters that construction accepts: a width of 1 to 32 (R5, D9), a memory of at least one cell (D33), a
subtract line that is a real bus line (R72, D22). -/
def CompCfg.legal : CompCfg → Bool
  | .register c => 1 ≤ c.width && c.width ≤ 32
  | .counter c => 1 ≤ c.width && c.width ≤ 32
  | .memory c => 1 ≤ c.width && c.width ≤ 32 && 1 ≤ c.size
  | .alu c => 1 ≤ c.width && c.width ≤ 32 && c.subIndex < 32

/-- Why a construction is refused. The first three are the source's `ConfigurationError` (R181); the others are the
refusals the spec adds to the same class (D9, D22, D33). Raised by `Machine.construct` only, before the machine
exists; safe, since no circuit results. -/
inductive ConfigError where
  | missingClock
  | missingDataBus
  | missingControlBus
  | badWidth (width : Int)
  | badSize (size : Int)
  | badLine (index : Int)
  | badSubIndex (index : Option Int)
  deriving DecidableEq, Repr

namespace Config

/-- `BUS_LINES` (R5, D1). -/
def busLines : Nat := 32

/-- `INTERVAL_MIN`, in milliseconds (R5). -/
def intervalMin : Nat := 2

/-- `INTERVAL_MAX`, in milliseconds (R5). -/
def intervalMax : Nat := 5000

/-- `CLOCK_INTERVAL_INIT` less 2: the spec leaves the parameter OPEN in 2 to 5000 (R5, R25, D4), so nothing in Lean can
evaluate it (assumption 2). -/
opaque clockIntervalSeed : Fin 4999

/-- `CLOCK_INTERVAL_INIT`, an unknown integer in 2 to 5000. -/
def clockIntervalInit : Nat := clockIntervalSeed.val + intervalMin

/-- The components of the reference circuit `REF` in construction order (R78): CNT, MEM, ALU, R0, R1. -/
def ref : Wiring :=
  [ .counter { width := 4, loadIndex := some 4, incrementIndex := some 5, driveIndex := some 6 },
    .memory { width := 8, size := 16, addressLoadIndex := some 7, readIndex := some 8, writeIndex := some 9 },
    .alu { width := 8, aLoadIndex := some 10, bLoadIndex := some 11, outDriveIndex := some 12, subIndex := 13 },
    .register { width := 8, loadIndex := some 0, driveIndex := some 1 },
    .register { width := 4, loadIndex := some 2, driveIndex := some 3 } ]

end Config

/-- Place of `CNT` in `REF` (R78). -/
abbrev Config.refCnt : Nat := 0
/-- Place of `MEM` in `REF` (R78). -/
abbrev Config.refMem : Nat := 1
/-- Place of `ALU` in `REF` (R78). -/
abbrev Config.refAlu : Nat := 2
/-- Place of `R0` in `REF` (R78). -/
abbrev Config.refR0 : Nat := 3
/-- Place of `R1` in `REF` (R78). -/
abbrev Config.refR1 : Nat := 4

end Sys2Proof
end

