-- ==== Sys2Proof/Syntax.lean ====
section
/-! DEFINITION. The instructions, one constructor for each of the 42 rows of the opcode table; the ways an instruction
names a bus, a register or a component; and the micro-operations and subscribers of an arbitrary circuit. -/

namespace Sys2Proof

/-- The two buses of a circuit (R20). -/
inductive BusId where
  | dbus | cbus
  deriving DecidableEq, Repr

/-- The three embedded registers of an ALU (R33). -/
inductive AluReg where
  | a | b | out
  deriving DecidableEq, Repr

/-- Which register of a component is meant: a free-standing Register itself, a Memory's address register, or one of an
ALU's three (R29, R32, R33). -/
inductive RegPart where
  | whole | mar | a | b | out
  deriving DecidableEq, Repr

/-- A Register, free-standing or embedded: the place of its component in the circuit, and which register of it. -/
structure RegRef where
  comp : Nat
  part : RegPart
  deriving DecidableEq, Repr

/-- An ALU's register as a Register (R168). -/
def AluReg.part : AluReg → RegPart
  | .a => .a
  | .b => .b
  | .out => .out

/-- The micro-operations of R73 in an arbitrary circuit. `MEM.ADDR_LOAD`, `ALU.A_LOAD` and `ALU.B_LOAD` are `regLoad` of
an embedded register and `ALU.OUT_DRIVE` is `regDrive` of one, as R151 and R161 to R163 say. -/
inductive Micro where
  | regDrive (r : RegRef)
  | regLoad (r : RegRef)
  | cntLoad (k : Nat)
  | cntInc (k : Nat)
  | cntDrive (k : Nat)
  | memWrite (k : Nat)
  | memRead (k : Nat)
  | aluAdd (k : Nat)
  | aluSub (k : Nat)
  deriving DecidableEq, Repr

/-- An entry of `CLK.rising` (R28): a core handler, named by its component's place, or a host observer, named by its
callback (R120). -/
inductive Subscriber where
  | reg (r : RegRef)
  | counter (k : Nat)
  | cells (k : Nat)
  | recompute (k : Nat)
  | observer (callback : Nat)
  deriving DecidableEq, Repr

/-- The instructions. The first fifteen are the micro-operations of `REF` (format CW); then the Clock's host commands
and timer events, the Bus's, the components' accessors and mutators, and the gate functions. Integer operands are
`Int`, optional ones `Option`, gate inputs are bits: what the spec refuses for its type (D12, D30, D36) cannot be
written. A callback is a number that stands for the host's observer. -/
inductive Instr where
  | regLoadR0
  | regDriveR0
  | regLoadR1
  | regDriveR1
  | cntLoad
  | cntInc
  | cntDrive
  | memAddrLoad
  | memRead
  | memWrite
  | aluALoad
  | aluBLoad
  | aluOutDrive
  | aluAdd
  | aluSub
  | clkStep
  | clkStart
  | clkStop
  | clkSetInterval (ms : Int)
  | clkCycle
  | clkAddRising (callback : Nat)
  | clkAddFalling (callback : Nat)
  | clkTick
  | clkCycleFall
  | busGet (bus : BusId) (index : Int)
  | busSet (bus : BusId) (index : Int) (value : Option Int)
  | busAssign (bus : BusId) (v : Int)
  | busRead (bus : BusId)
  | regGet (r : RegRef) (index : Int)
  | regSet (r : RegRef) (index : Int) (value : Option Int)
  | cntGet (k : Nat) (index : Int)
  | cntSet (k : Nat) (index : Int) (value : Option Int)
  | memGet (k : Nat) (index : Int)
  | memSet (k : Nat) (index : Int) (value : Option Int)
  | aluGet (k : Nat) (named : Option AluReg) (index : Int)
  | aluSet (k : Nat) (named : Option AluReg) (index : Int) (value : Option Int)
  | gateAnd (a b : Bit)
  | gateOr (a b : Bit)
  | gateNand (a b : Bit)
  | gateNor (a b : Bit)
  | gateXor (a b : Bit)
  | fullAdd (cin a b : Bit)
  deriving DecidableEq, Repr

end Sys2Proof
end

