-- ==== Sys2Proof/WellFormed.lean ====
section
/-! DEFINITION. When an instruction is well formed in a circuit: it names components the circuit has, of the right kind,
and it is none of the forms the spec refuses for their operands. -/

namespace Sys2Proof

/-- The component kind that has a given register (R29, R32, R33). -/
def RegPart.kind : RegPart → Kind
  | .whole => .register
  | .mar => .memory
  | .a => .alu
  | .b => .alu
  | .out => .alu

/-- The component kinds of a circuit, in construction order. -/
abbrev Shape := List Kind

/-- The circuit has a component of the kind `d` at place `k`. -/
def Shape.has (sh : Shape) (k : Nat) (d : Kind) : Bool := sh[k]? == some d

/-- The circuit has the register `r`. -/
def Shape.hasReg (sh : Shape) (r : RegRef) : Bool := sh.has r.comp r.part.kind

/-- The shape of a wiring. -/
def Wiring.shape (w : Wiring) : Shape := w.map CompCfg.kind

/-- A rising subscriber that names a register or component the circuit has (R28). -/
def Subscriber.fits (sh : Shape) : Subscriber → Bool
  | .reg r => sh.hasReg r
  | .counter k => sh.has k .counter
  | .cells k => sh.has k .memory
  | .recompute k => sh.has k .alu
  | .observer _ => true

/-- A whole-bus value that `BUS.ASSIGN` accepts: an integer in `[0, 2^32)` (R102, D11). -/
def assignable (v : Int) : Bool := 0 ≤ v && v < 4294967296

/-- Well-formedness in a circuit of the given shape. The rows of format CW name the components of `REF` (R78). -/
def Instr.wf (sh : Shape) : Instr → Bool
  | .regLoadR0 => sh.has Config.refR0 .register
  | .regDriveR0 => sh.has Config.refR0 .register
  | .regLoadR1 => sh.has Config.refR1 .register
  | .regDriveR1 => sh.has Config.refR1 .register
  | .cntLoad => sh.has Config.refCnt .counter
  | .cntInc => sh.has Config.refCnt .counter
  | .cntDrive => sh.has Config.refCnt .counter
  | .memAddrLoad => sh.has Config.refMem .memory
  | .memRead => sh.has Config.refMem .memory
  | .memWrite => sh.has Config.refMem .memory
  | .aluALoad => sh.has Config.refAlu .alu
  | .aluBLoad => sh.has Config.refAlu .alu
  | .aluOutDrive => sh.has Config.refAlu .alu
  | .aluAdd => sh.has Config.refAlu .alu
  | .aluSub => sh.has Config.refAlu .alu
  | .clkStep => true
  | .clkStart => true
  | .clkStop => true
  | .clkSetInterval _ => true
  | .clkCycle => true
  | .clkAddRising _ => true
  | .clkAddFalling _ => true
  | .clkTick => true
  | .clkCycleFall => true
  | .busGet _ _ => true
  | .busSet _ _ _ => true
  | .busAssign _ v => assignable v
  | .busRead _ => true
  | .regGet r _ => sh.hasReg r
  | .regSet r _ _ => sh.hasReg r
  | .cntGet k _ => sh.has k .counter
  | .cntSet k _ _ => sh.has k .counter
  | .memGet k _ => sh.has k .memory
  | .memSet k _ _ => sh.has k .memory
  | .aluGet k _ _ => sh.has k .alu
  | .aluSet k named _ _ => sh.has k .alu && named.isSome
  | .gateAnd _ _ => true
  | .gateOr _ _ => true
  | .gateNand _ _ => true
  | .gateNor _ _ => true
  | .gateXor _ _ => true
  | .fullAdd _ _ _ => true

end Sys2Proof
end

