-- ==== Sys2Proof/Decode.lean ====
section
/-! DEFINITION. The control word: which subscribers a component contributes and in what order, which micro-operations a
control word selects in a given wiring, the decoder from a table word to an instruction of `REF`, and the encoder. -/

namespace Sys2Proof

/-! ### The wiring -/

/-- The rising subscribers that the component at place `k` appends at construction, in order: R130, R140, and the
decided sub-orders `MEM_SUB_ORDER` (R150) and `ALU_SUB_ORDER` (R160). -/
def CompCfg.handlers (k : Nat) : CompCfg → List Subscriber
  | .register _ => [.reg ⟨k, .whole⟩]
  | .counter _ => [.counter k]
  | .memory _ => [.reg ⟨k, .mar⟩, .cells k]
  | .alu _ => [.reg ⟨k, .a⟩, .reg ⟨k, .b⟩, .reg ⟨k, .out⟩, .recompute k]

/-- The subscribers of components constructed one after another, the first at place `k` (R28, R201). -/
def Wiring.handlersFrom (k : Nat) : Wiring → List Subscriber
  | [] => []
  | c :: rest => c.handlers k ++ Wiring.handlersFrom (k + 1) rest

/-- The order of `CLK.rising` of a circuit without host observers. -/
def Wiring.handlers (w : Wiring) : List Subscriber := Wiring.handlersFrom 0 w

/-- The configuration of a component's register: a Memory's address register never drives (R32); an ALU's `A` and `B`
never drive and its `OUT` never loads (R33). -/
def CompCfg.regCfg? : RegPart → CompCfg → Option RegisterCfg
  | .whole, .register c => some c
  | .mar, .memory c => some { width := c.width, loadIndex := c.addressLoadIndex, driveIndex := none }
  | .a, .alu c => some { width := c.width, loadIndex := c.aLoadIndex, driveIndex := none }
  | .b, .alu c => some { width := c.width, loadIndex := c.bLoadIndex, driveIndex := none }
  | .out, .alu c => some { width := c.width, loadIndex := none, driveIndex := c.outDriveIndex }
  | _, _ => none

/-! ### Decoding a control word -/

/-- `asserted(idx)` of R8 on the control word `w`: the index is not `none`, lies in `[0, 32)`, and the bit is 1. -/
def lineAsserted (w : Word) : Line → Bool
  | none => false
  | some i => decide (i < Config.busLines) && w.getLsbD i

/-- The micro-operation, when its line is asserted. -/
def gated (w : Word) (l : Line) (m : Micro) : List Micro := if lineAsserted w l then [m] else []

/-- The micro-operations one subscriber performs under the control word `w`, in the order of its handler: drive then
load (R131), load, increment, drive (R141), write then read (R152), and the unconditional recompute in its form for
the subtract bit (R73, R164). An observer performs none (R174). -/
def Subscriber.select (wir : Wiring) (w : Word) : Subscriber → List Micro
  | .reg r =>
    match (wir[r.comp]?).bind (CompCfg.regCfg? r.part) with
    | some c => gated w c.driveIndex (.regDrive r) ++ gated w c.loadIndex (.regLoad r)
    | none => []
  | .counter k =>
    match wir[k]? with
    | some (.counter c) =>
      gated w c.loadIndex (.cntLoad k) ++ gated w c.incrementIndex (.cntInc k) ++ gated w c.driveIndex (.cntDrive k)
    | _ => []
  | .cells k =>
    match wir[k]? with
    | some (.memory c) => gated w c.writeIndex (.memWrite k) ++ gated w c.readIndex (.memRead k)
    | _ => []
  | .recompute k =>
    match wir[k]? with
    | some (.alu c) => [if w.getLsbD c.subIndex then .aluSub k else .aluAdd k]
    | _ => []
  | .observer _ => []

/-- The decoder of R73 for a wiring and a registration order: the micro-operations that a rising edge under the control
word `w` performs, in the order it performs them. Total: no control word is illegal (R75). -/
def decode (wir : Wiring) (order : List Subscriber) (w : Word) : List Micro := order.flatMap (Subscriber.select wir w)

/-! ### The rows of the opcode table, which are the micro-operations of `REF` -/

/-- The micro-operation that a row of format CW stands for (R73, R78); the other formats have no encoding (R80). -/
def Instr.micro? : Instr → Option Micro
  | .regLoadR0 => some (.regLoad ⟨Config.refR0, .whole⟩)
  | .regDriveR0 => some (.regDrive ⟨Config.refR0, .whole⟩)
  | .regLoadR1 => some (.regLoad ⟨Config.refR1, .whole⟩)
  | .regDriveR1 => some (.regDrive ⟨Config.refR1, .whole⟩)
  | .cntLoad => some (.cntLoad Config.refCnt)
  | .cntInc => some (.cntInc Config.refCnt)
  | .cntDrive => some (.cntDrive Config.refCnt)
  | .memAddrLoad => some (.regLoad ⟨Config.refMem, .mar⟩)
  | .memRead => some (.memRead Config.refMem)
  | .memWrite => some (.memWrite Config.refMem)
  | .aluALoad => some (.regLoad ⟨Config.refAlu, .a⟩)
  | .aluBLoad => some (.regLoad ⟨Config.refAlu, .b⟩)
  | .aluOutDrive => some (.regDrive ⟨Config.refAlu, .out⟩)
  | .aluAdd => some (.aluAdd Config.refAlu)
  | .aluSub => some (.aluSub Config.refAlu)
  | .clkStep => none
  | .clkStart => none
  | .clkStop => none
  | .clkSetInterval _ => none
  | .clkCycle => none
  | .clkAddRising _ => none
  | .clkAddFalling _ => none
  | .clkTick => none
  | .clkCycleFall => none
  | .busGet _ _ => none
  | .busSet _ _ _ => none
  | .busAssign _ _ => none
  | .busRead _ => none
  | .regGet _ _ => none
  | .regSet _ _ _ => none
  | .cntGet _ _ => none
  | .cntSet _ _ _ => none
  | .memGet _ _ => none
  | .memSet _ _ _ => none
  | .aluGet _ _ _ => none
  | .aluSet _ _ _ _ => none
  | .gateAnd _ _ => none
  | .gateOr _ _ => none
  | .gateNand _ _ => none
  | .gateNor _ _ => none
  | .gateXor _ _ => none
  | .fullAdd _ _ _ => none

/-- The row of the opcode table that names a micro-operation of `REF`; none for one of another circuit. -/
def Micro.row? : Micro → Option Instr
  | .regLoad ⟨3, .whole⟩ => some .regLoadR0
  | .regDrive ⟨3, .whole⟩ => some .regDriveR0
  | .regLoad ⟨4, .whole⟩ => some .regLoadR1
  | .regDrive ⟨4, .whole⟩ => some .regDriveR1
  | .cntLoad 0 => some .cntLoad
  | .cntInc 0 => some .cntInc
  | .cntDrive 0 => some .cntDrive
  | .regLoad ⟨1, .mar⟩ => some .memAddrLoad
  | .memRead 1 => some .memRead
  | .memWrite 1 => some .memWrite
  | .regLoad ⟨2, .a⟩ => some .aluALoad
  | .regLoad ⟨2, .b⟩ => some .aluBLoad
  | .regDrive ⟨2, .out⟩ => some .aluOutDrive
  | .aluAdd 2 => some .aluAdd
  | .aluSub 2 => some .aluSub
  | _ => none

/-- The ALU's recompute, which every rising edge performs whatever else the word selects (R73, R76). -/
def Micro.isRecompute : Micro → Bool
  | .aluAdd _ => true
  | .aluSub _ => true
  | _ => false

/-- All the instructions of the table that a control word selects in `REF`, in the order the edge performs them. -/
def decodeRef (w : Word) : List Instr := (decode Config.ref (Wiring.handlers Config.ref) w).filterMap Micro.row?

/-- Why bits are not a control word: a control word has one length, 32 bits (R70, R77). -/
inductive DecodeError where
  | wrongLength (nbits : Nat)
  deriving DecidableEq, Repr

/-- The control word that `nbits` bits stand for; every other length is rejected by name. -/
def controlWord (nbits w : Nat) : Except DecodeError Word :=
  if nbits = Config.busLines then .ok (BitVec.ofNat Config.busLines w) else .error (.wrongLength nbits)

/-- The row that a control word is the encoding of: the first operation it gates, in the order of the edge, or, when it
gates none, the form of the recompute it selects. A word that asserts several lines selects several rows at once;
`decodeRef` gives them all. -/
def leadingRow (is : List Instr) : Option Instr :=
  match is.find? (fun i => !(i.micro?.any Micro.isRecompute)) with
  | some i => some i
  | none => is.head?

/-- The instruction the decoder reads from a table row's word. -/
def decodeTableWord (nbits w : Nat) : Option Instr :=
  match controlWord nbits w with
  | .ok cw => leadingRow (decodeRef cw)
  | .error _ => none

/-! ### Encoding -/

/-- The control line whose bit selects a micro-operation; the recompute's is the subtract line (R73). -/
def Micro.line (wir : Wiring) : Micro → Line
  | .regDrive r => ((wir[r.comp]?).bind (CompCfg.regCfg? r.part)).bind RegisterCfg.driveIndex
  | .regLoad r => ((wir[r.comp]?).bind (CompCfg.regCfg? r.part)).bind RegisterCfg.loadIndex
  | .cntLoad k => match wir[k]? with | some (.counter c) => c.loadIndex | _ => none
  | .cntInc k => match wir[k]? with | some (.counter c) => c.incrementIndex | _ => none
  | .cntDrive k => match wir[k]? with | some (.counter c) => c.driveIndex | _ => none
  | .memWrite k => match wir[k]? with | some (.memory c) => c.writeIndex | _ => none
  | .memRead k => match wir[k]? with | some (.memory c) => c.readIndex | _ => none
  | .aluAdd k => match wir[k]? with | some (.alu c) => some c.subIndex | _ => none
  | .aluSub k => match wir[k]? with | some (.alu c) => some c.subIndex | _ => none

/-- The mask of a line, `1 << p`; an index of 32 or more has no bit (R72, R73). -/
def lineMask : Line → Word
  | some p => if p < Config.busLines then 1#32 <<< p else 0#32
  | none => 0#32

/-- The `match` value of a micro-operation (R73): its line's mask, and 0 for `ALU.ADD`. -/
def Micro.encode (wir : Wiring) (m : Micro) : Word :=
  match m with
  | .aluAdd _ => 0#32
  | .regDrive _ => lineMask (m.line wir)
  | .regLoad _ => lineMask (m.line wir)
  | .cntLoad _ => lineMask (m.line wir)
  | .cntInc _ => lineMask (m.line wir)
  | .cntDrive _ => lineMask (m.line wir)
  | .memWrite _ => lineMask (m.line wir)
  | .memRead _ => lineMask (m.line wir)
  | .aluSub _ => lineMask (m.line wir)

/-- The control word that selects several micro-operations at once: any subset of lines may be asserted (R70). -/
def encodeAll (wir : Wiring) (ms : List Micro) : Word := ms.foldr (fun m w => m.encode wir ||| w) 0#32

/-- The word of an instruction in `REF`; the host's commands, the timer's events and the gates have none (R80). -/
def encode (i : Instr) : Option Word := i.micro?.map (Micro.encode Config.ref)

end Sys2Proof
end

