-- ==== Sys2Proof/Machine/State.lean ====
section
/-! DEFINITION. The state of a circuit as plain data (R20 to R33, R36): the Clock, the two buses, every component with its
values beside its configuration, the sticky FAULT; then the model's own fields. And the reset state of `REF` (R38). -/

namespace Sys2Proof.Machine

open Sys2Proof

/-- The reason of the first fault raised, recorded in `FAULT` (R36, R183, R188). -/
inductive Fault where
  /-- A cell access whose address register names no cell. Raised by the cell handler on a rising edge, by `MEM.GET` and
  by `MEM.SET`; the transaction that raises it answers the state at the fault, and every later one answers this fault.
  Safe: the spec gives a faulted run no further meaning (R188, D15). -/
  | invalidMemoryAddress (address : Nat)
  deriving DecidableEq, Repr

/-- Why a command is refused: the spec gives it no meaning and the model has no transition for it (glossary, "Refused"). -/
inductive Refusal where
  /-- An instruction without a meaning yet. No arm of `exec` answers it. Safe. -/
  | notModelled (mnemonic : String)
  /-- `CLK.STEP`, `CLK.START`, `CLK.STOP` or `CLK.SET_INTERVAL` while a cycle is pending (R125, D17). Safe. -/
  | cyclePending
  /-- `CLK.CYCLE` with the clock HIGH and no cycle pending (R117, D16). Safe. -/
  | cycleFromHigh
  /-- `CLK.TICK` while not running: the timer has no such event then (R119). Safe. -/
  | tickNotEnabled
  /-- `CLK.CYCLE_FALL` while no falling half is pending: the timer has no such event then (R118). Safe. -/
  | cycleFallNotEnabled
  /-- `BUS.ASSIGN` of a value outside `[0, 2^32)` (R102, D11). Safe. -/
  | assignOutOfRange (v : Int)
  /-- `ALU.SET` with no register named (R168, D13). Safe. -/
  | aluSetNamesNoRegister
  /-- An instruction names a component that the circuit does not have, or one of another kind (R20, R73). Safe. -/
  | noSuchComponent (k : Nat)
  /-- The agenda holds a micro-operation, which is no transaction: it happens only inside the dispatch of a rising edge
  (R10, R73). Raised by `step` only. Safe. -/
  | notATransaction
  deriving DecidableEq, Repr

/-- The clock's level (R24). -/
inductive Phase where
  | low | high
  deriving DecidableEq, Repr

/-- `CLK.cycle_state` (R27). `pendingRise` is left visible only by a fault inside `cycle()` (R188). -/
inductive CycleState where
  | idle | pendingRise | pendingFall
  deriving DecidableEq, Repr

/-- The Clock (R24 to R28). A falling subscriber is always a host observer: no core component appends one (R28). The
hidden state `TIMER.free_run_armed` equals `running` and `TIMER.cycle_armed` equals `cycleState = pendingFall` (R36). -/
structure Clock where
  phase : Phase
  interval : Nat
  running : Bool
  cycleState : CycleState
  rising : List Subscriber
  falling : List Nat
  deriving DecidableEq, Repr

/-- A Register (R29): the width invariant of R30 holds by type. -/
structure Register where
  cfg : RegisterCfg
  value : BitVec cfg.width
  deriving DecidableEq, Repr

/-- A Counter (R31). -/
structure Counter where
  cfg : CounterCfg
  value : BitVec cfg.width
  deriving DecidableEq, Repr

/-- A Memory (R32): its address register and its cells. The cells are listed by address, strictly rising; an address
below `size` that is not listed reads as zero, the reset value of a cell (R38), and no listed cell holds zero. -/
structure Memory where
  cfg : MemoryCfg
  mar : BitVec cfg.width
  cells : List (Nat × BitVec cfg.width)
  deriving DecidableEq, Repr

/-- An ALU (R33). It has no flags (R35, R167). -/
structure Alu where
  cfg : AluCfg
  a : BitVec cfg.width
  b : BitVec cfg.width
  out : BitVec cfg.width
  deriving DecidableEq, Repr

/-- A component of a circuit (R20). -/
inductive Component where
  | register (r : Register)
  | counter (c : Counter)
  | memory (m : Memory)
  | alu (u : Alu)
  deriving DecidableEq, Repr

/-- What a transaction returns to its caller (the model's own; assumption 4). -/
inductive Reply where
  /-- The command returns nothing. -/
  | nothing
  /-- `NoValue`: an index out of range (R9, R182). -/
  | noValue
  /-- A bit read, or a gate's result. -/
  | bit (b : Bit)
  /-- A whole bus value (R103). -/
  | word (v : Word)
  /-- The full adder's two results (R96). -/
  | sumCarry (sum cout : Bit)
  /-- The one-shot event `CYCLE_DONE` (R36, R118). -/
  | cycleDone
  /-- The command raised a fault (R188). -/
  | raised (f : Fault)
  /-- The subscriber at this position of `CLK.rising` failed, for this reason (R113, R184). The first subscriber has position
  0: DESIGN CHOICE, the spec gives the position no number (assumption 22). -/
  | subscriberFailure (position : Nat) (f : Fault)
  deriving DecidableEq, Repr

/-- The state of a circuit. `comps` lists the components in construction order, each with its configuration, which no
transaction changes (R39). The last three fields are the model's own: `agenda` is the order in which the host and the
timer perform their next transactions (R10, R62; assumption 3), `reply` what the last transaction returned, `notified`
the host observers it invoked, in order (R120, R121; assumption 4). -/
structure State where
  clk : Clock
  dbus : Word
  cbus : Word
  comps : List Component
  fault : Option Fault
  agenda : List Instr
  reply : Reply
  notified : List Nat
  deriving DecidableEq, Repr

/-- A component right after its construction: every value zero (R38, D3). -/
def Component.fresh : CompCfg → Component
  | .register c => .register { cfg := c, value := 0 }
  | .counter c => .counter { cfg := c, value := 0 }
  | .memory c => .memory { cfg := c, mar := 0, cells := [] }
  | .alu c => .alu { cfg := c, a := 0, b := 0, out := 0 }

/-- The state after the Clock and the two buses are constructed, before any component (R38, R201 steps 1 and 2). -/
def State.empty (interval : Nat) : State :=
  { clk := { phase := .low, interval := interval, running := false, cycleState := .idle, rising := [], falling := [] }
    dbus := 0, cbus := 0, comps := [], fault := none, agenda := [], reply := .nothing, notified := [] }

/-- Construction of one more component: it joins the circuit with its reset value and appends its handlers to the rising
list (R28, R130, R140, R150, R160). -/
def State.addComponent (s : State) (c : CompCfg) : State :=
  { s with
    comps := s.comps ++ [Component.fresh c]
    clk := { s.clk with rising := s.clk.rising ++ c.handlers s.comps.length } }

/-- The reset state of a circuit: the state at the end of construction (R38, R200). -/
def State.initial (interval : Nat) (w : Wiring) : State := w.foldl State.addComponent (State.empty interval)

/-- The machine right after reset: `REF` (R78) with every `INIT_*` zero (R38). -/
def State.reset : State := State.initial Config.clockIntervalInit Config.ref

end Sys2Proof.Machine
end

