-- ==== Sys2Proof/Machine/Operands.lean ====
section
/-! DEFINITION. The operand forms: a bit index and its range (R100, R135), the optional value of a `SET` (R101), the
components and registers an instruction names, and the zero-extension and truncation between a component and a bus. -/

namespace Sys2Proof.Machine

open Sys2Proof

/-! ### Bits of a value -/

/-- A bit index in `[0, width)`; `none` is the `OutOfRange` case (R182). -/
def bitIndex? (width : Nat) (i : Int) : Option Nat := if 0 ≤ i ∧ i < width then some i.toNat else none

/-- `get`: the bit at an index, or no value (R100, R135). -/
def getBit {w : Nat} (v : BitVec w) (i : Int) : Option Bit := (bitIndex? w i).map v.getLsbD

/-- `x[i] <- b`: one bit replaced, the others kept (R7). -/
def writeBit {w : Nat} (v : BitVec w) (i : Nat) (b : Bit) : BitVec w :=
  if b then v ||| (1#w <<< i) else v &&& ~~~(1#w <<< i)

/-- The bit a `SET` writes: 1 for a positive value, 0 for zero, the complement of the old bit for a negative or an omitted
one (R101). -/
def setValue (value : Option Int) (old : Bit) : Bit :=
  match value with
  | some v => if 0 < v then true else if v = 0 then false else !old
  | none => !old

/-- A `SET` of bit `i` of a value. -/
def setBitAt {w : Nat} (v : BitVec w) (i : Nat) (value : Option Int) : BitVec w :=
  writeBit v i (setValue value (v.getLsbD i))

/-- The reply that an accessor's optional bit is (R9). -/
def replyOfBit : Option Bit → Reply
  | some b => .bit b
  | none => .noValue

/-- `zext_32` (R6): what a component of width `w` puts on the data bus. -/
def toBus {w : Nat} (v : BitVec w) : Word := v.setWidth 32

/-- `trunc_W` (R6): what a component of width `w` takes from the data bus, `DBUS[W-1:0]`. -/
def fromBus (w : Nat) (bus : Word) : BitVec w := bus.setWidth w

/-- `set_interval`'s clamp, `min(max(ms, 2), 5000)` (R116). -/
def clampInterval (ms : Int) : Nat := (min (max ms Config.intervalMin) Config.intervalMax).toNat

/-! ### Components and registers -/

/-- The configuration of a component. -/
def Component.cfg : Component → CompCfg
  | .register r => .register r.cfg
  | .counter c => .counter c.cfg
  | .memory m => .memory m.cfg
  | .alu u => .alu u.cfg

/-- The configurations of the circuit (R39). -/
def State.wiring (s : State) : Wiring := s.comps.map Component.cfg

/-- The width field of the component at place `k`, readable by the host (R172). -/
def State.width? (s : State) (k : Nat) : Option Nat := (s.comps[k]?).map fun c => c.cfg.width

/-- The Counter at place `k`. -/
def State.counter? (s : State) (k : Nat) : Option Counter :=
  match s.comps[k]? with
  | some (.counter c) => some c
  | _ => none

/-- The Memory at place `k`. -/
def State.memory? (s : State) (k : Nat) : Option Memory :=
  match s.comps[k]? with
  | some (.memory m) => some m
  | _ => none

/-- The ALU at place `k`. -/
def State.alu? (s : State) (k : Nat) : Option Alu :=
  match s.comps[k]? with
  | some (.alu u) => some u
  | _ => none

/-- The size field of the Memory at place `k`, readable by the host (R172). -/
def State.size? (s : State) (k : Nat) : Option Nat := (s.memory? k).map fun m => m.cfg.size

/-- A register of a component seen as a Register: an embedded one has the lines of R32 or R33. -/
def Component.reg? : RegPart → Component → Option Register
  | .whole, .register r => some r
  | .mar, .memory m =>
    some { cfg := { width := m.cfg.width, loadIndex := m.cfg.addressLoadIndex, driveIndex := none }, value := m.mar }
  | .a, .alu u => some { cfg := { width := u.cfg.width, loadIndex := u.cfg.aLoadIndex, driveIndex := none }, value := u.a }
  | .b, .alu u => some { cfg := { width := u.cfg.width, loadIndex := u.cfg.bLoadIndex, driveIndex := none }, value := u.b }
  | .out, .alu u =>
    some { cfg := { width := u.cfg.width, loadIndex := none, driveIndex := u.cfg.outDriveIndex }, value := u.out }
  | _, _ => none

/-- One register of a component changed by a function of its value; a component without that register is kept. -/
def Component.updateReg (f : (w : Nat) → BitVec w → BitVec w) : RegPart → Component → Component
  | .whole, .register r => .register { r with value := f r.cfg.width r.value }
  | .mar, .memory m => .memory { m with mar := f m.cfg.width m.mar }
  | .a, .alu u => .alu { u with a := f u.cfg.width u.a }
  | .b, .alu u => .alu { u with b := f u.cfg.width u.b }
  | .out, .alu u => .alu { u with out := f u.cfg.width u.out }
  | _, c => c

/-- The Register that `r` names. -/
def State.reg? (s : State) (r : RegRef) : Option Register := (s.comps[r.comp]?).bind (Component.reg? r.part)

/-- The bus that `b` names. -/
def State.bus (s : State) : BusId → Word
  | .dbus => s.dbus
  | .cbus => s.cbus

/-- `asserted(idx)` (R8), against the control bus as it stands. -/
abbrev State.asserted (s : State) (l : Line) : Bool := lineAsserted s.cbus l

/-- "A cycle is in progress" (R27). -/
def State.cyclePending (s : State) : Bool := s.clk.cycleState != .idle

end Sys2Proof.Machine
end

