-- ==== Sys2Proof/Machine/Flags.lean ====
section
/-! DEFINITION. There are no flags, condition codes or predicates: nothing is computed for them and nothing is stored
(R35, R167). What stands where flag computations would is the carry of the full-adder ripple chain, which is used from
stage to stage and discarded at the end (R143, R164). -/

namespace Sys2Proof.Machine

open Sys2Proof

/-- The ripple chain after its first `n` stages: the sum bits so far and the carry into stage `n`. Stage `i` is
`fulladd(carry, a i, b i)`, least significant first (R143, R164). -/
def rippleLoop (w : Nat) (cin : Bit) (a b : Nat → Bit) : Nat → BitVec w × Bit
  | 0 => (0#w, cin)
  | n + 1 =>
    let p := rippleLoop w cin a b n
    let r := fulladd p.2 (a n) (b n)
    (writeBit p.1 n r.1, r.2)

/-- The `w` sum bits of the chain; the final carry is dropped (R35). -/
def ripple (w : Nat) (cin : Bit) (a b : Nat → Bit) : BitVec w := (rippleLoop w cin a b w).1

/-- The Counter's increment (R143): first carry-in 1, second addend all zeros (D8). -/
def increment {w : Nat} (v : BitVec w) : BitVec w := ripple w true v.getLsbD (fun _ => false)

/-- The ALU's result (R164): each bit of `b` is XORed with the subtract bit, which is also the first carry-in. -/
def recomputed {w : Nat} (sub : Bit) (a b : BitVec w) : BitVec w :=
  ripple w sub a.getLsbD (fun i => xorGate (b.getLsbD i) sub)

end Sys2Proof.Machine
end

