-- ==== Sys2Proof/Machine/Ops.lean ====
section
/-! DEFINITION. The named operations that every meaning is written over: updates of the state, the cells of a Memory,
raising a fault, the micro-operations of R73 on an arbitrary circuit, and the guards a meaning begins with. -/

namespace Sys2Proof.Machine

open Sys2Proof

/-! ### Updates of the state -/

/-- `DBUS <- v`: all 32 lines (R132, D7). -/
def State.setDbus (s : State) (v : Word) : State := { s with dbus := v }

/-- A whole bus replaced (R102). -/
def State.setBus (s : State) (b : BusId) (v : Word) : State :=
  match b with
  | .dbus => { s with dbus := v }
  | .cbus => { s with cbus := v }

/-- The component at place `k` replaced. -/
def State.setComp (s : State) (k : Nat) (c : Component) : State := { s with comps := s.comps.set k c }

/-- The Clock replaced. -/
def State.setClk (s : State) (c : Clock) : State := { s with clk := c }

/-- The end of a transaction that invokes no subscriber: its reply to the caller. -/
def State.answer (s : State) (r : Reply) : State := { s with reply := r, notified := [] }

/-- The start of a transaction that may invoke subscribers: nothing returned and nobody notified yet. -/
def State.opened (s : State) : State := { s with reply := .nothing, notified := [] }

/-- A host observer is invoked: it may only look (R174), so all that happens is that it was told. -/
def State.notify (s : State) (callback : Nat) : State := { s with notified := s.notified ++ [callback] }

/-- Taking a fault (R188): the first fault is recorded in `FAULT`, and every assignment already made stands. There is no
trap entry, nothing else is saved, and there is no return from a fault (R189). -/
def State.raise (s : State) (f : Fault) : State :=
  match s.fault with
  | none => { s with fault := some f }
  | some _ => s

/-- One register changed by a function of its value. -/
def State.updateReg (s : State) (r : RegRef) (f : (w : Nat) → BitVec w → BitVec w) : State :=
  match s.comps[r.comp]? with
  | some c => s.setComp r.comp (c.updateReg f r.part)
  | none => s

/-! ### The cells of a Memory -/

/-- The canonical form of a cell list: addresses strictly rising, no entry equal to what an unlisted address reads as. -/
abbrev cellsCanonical {w : Nat} (l : List (Nat × BitVec w)) : Prop :=
  l.Pairwise (fun x y => x.1 < y.1) ∧ ∀ e ∈ l, e.2 ≠ 0#w

/-- The cell at an address; an unlisted one reads as zero (R38). -/
def cellsRead {w : Nat} : List (Nat × BitVec w) → Nat → BitVec w
  | [], _ => 0#w
  | (b, u) :: rest, a => if a = b then u else cellsRead rest a

/-- One cell replaced, in canonical form: writing zero removes the entry. -/
def cellsWrite {w : Nat} : List (Nat × BitVec w) → Nat → BitVec w → List (Nat × BitVec w)
  | [], a, v => if v = 0#w then [] else [(a, v)]
  | (b, u) :: rest, a, v =>
    if a < b then (if v = 0#w then (b, u) :: rest else (a, v) :: (b, u) :: rest)
    else if a = b then (if v = 0#w then rest else (a, v) :: rest)
    else (b, u) :: cellsWrite rest a v

/-- A Memory in canonical form, all of whose listed addresses have a cell. -/
abbrev Memory.wf (m : Memory) : Prop := cellsCanonical m.cells ∧ ∀ e ∈ m.cells, e.1 < m.cfg.size

/-- `m.MemRead(addr, 1)` for an address below the size (R7). -/
def Memory.readCell (m : Memory) (a : Nat) : BitVec m.cfg.width := cellsRead m.cells a

/-- `m.MemWrite(addr, 1, v)` for an address below the size (R7). -/
def Memory.writeCell (m : Memory) (a : Nat) (v : BitVec m.cfg.width) : Memory := { m with cells := cellsWrite m.cells a v }

/-- The address register names a cell (R57, R156). -/
def Memory.addressed (m : Memory) : Bool := m.mar.toNat < m.cfg.size

/-- The fault of an access whose address register names no cell; it records the address (R183). -/
def Memory.addressFault (m : Memory) : Fault := .invalidMemoryAddress m.mar.toNat

/-! ### The micro-operations (R73) -/

/-- `REG.DRIVE` (R132). -/
def State.driveReg (s : State) (r : RegRef) : State :=
  match s.reg? r with
  | some reg => s.setDbus (toBus reg.value)
  | none => s

/-- `REG.LOAD` (R133). -/
def State.loadReg (s : State) (r : RegRef) : State := s.updateReg r (fun w _ => fromBus w s.dbus)

/-- `CNT.LOAD` (R142). -/
def State.loadCounter (s : State) (k : Nat) : State :=
  match s.counter? k with
  | some c => s.setComp k (.counter { c with value := fromBus c.cfg.width s.dbus })
  | none => s

/-- `CNT.INC` (R143). -/
def State.incCounter (s : State) (k : Nat) : State :=
  match s.counter? k with
  | some c => s.setComp k (.counter { c with value := increment c.value })
  | none => s

/-- `CNT.DRIVE` (R144). -/
def State.driveCounter (s : State) (k : Nat) : State :=
  match s.counter? k with
  | some c => s.setDbus (toBus c.value)
  | none => s

/-- The address check of R152, made before any effect: an address that names no cell raises the fault and the access
does not happen (R156). -/
def State.withCell (s : State) (k : Nat) (act : State → State) : State :=
  match s.memory? k with
  | some m => if m.addressed then act s else s.raise m.addressFault
  | none => s

/-- The store of R153, for an address that names a cell. -/
def State.storeCell (s : State) (k : Nat) : State :=
  match s.memory? k with
  | some m => s.setComp k (.memory (m.writeCell m.mar.toNat (fromBus m.cfg.width s.dbus)))
  | none => s

/-- The read of R154, for an address that names a cell. -/
def State.fetchCell (s : State) (k : Nat) : State :=
  match s.memory? k with
  | some m => s.setDbus (toBus (m.readCell m.mar.toNat))
  | none => s

/-- `MEM.WRITE` on its own (R153, R156). -/
def State.writeMemory (s : State) (k : Nat) : State := s.withCell k (fun t => t.storeCell k)

/-- `MEM.READ` on its own (R154, R156). -/
def State.readMemory (s : State) (k : Nat) : State := s.withCell k (fun t => t.fetchCell k)

/-- The recompute of R164 with the subtract bit `sub`. -/
def State.recompute (s : State) (k : Nat) (sub : Bit) : State :=
  match s.alu? k with
  | some u => s.setComp k (.alu { u with out := recomputed sub u.a u.b })
  | none => s

/-- The effect of a micro-operation (R73). -/
def State.perform (s : State) : Micro → State
  | .regDrive r => s.driveReg r
  | .regLoad r => s.loadReg r
  | .cntLoad k => s.loadCounter k
  | .cntInc k => s.incCounter k
  | .cntDrive k => s.driveCounter k
  | .memWrite k => s.writeMemory k
  | .memRead k => s.readMemory k
  | .aluAdd k => s.recompute k false
  | .aluSub k => s.recompute k true

/-! ### The guards of a meaning -/

/-- After a fault no command or event has a meaning: the machine answers the recorded fault (R188, R189). -/
def live (s : State) (k : Host.Outcome State Fault Refusal) : Host.Outcome State Fault Refusal :=
  match s.fault with
  | some f => .fault f
  | none => k

/-- A meaning that acts on the register `r`. -/
def onReg (s : State) (r : RegRef) (k : Register → Host.Outcome State Fault Refusal) : Host.Outcome State Fault Refusal :=
  live s (match s.reg? r with
    | some reg => k reg
    | none => .refused (.noSuchComponent r.comp))

/-- A meaning that acts on the Counter at place `k`. -/
def onCounter (s : State) (k : Nat) (act : Counter → Host.Outcome State Fault Refusal) :
    Host.Outcome State Fault Refusal :=
  live s (match s.counter? k with
    | some c => act c
    | none => .refused (.noSuchComponent k))

/-- A meaning that acts on the Memory at place `k`. -/
def onMemory (s : State) (k : Nat) (act : Memory → Host.Outcome State Fault Refusal) :
    Host.Outcome State Fault Refusal :=
  live s (match s.memory? k with
    | some m => act m
    | none => .refused (.noSuchComponent k))

/-- A meaning that acts on the ALU at place `k`. -/
def onAlu (s : State) (k : Nat) (act : Alu → Host.Outcome State Fault Refusal) : Host.Outcome State Fault Refusal :=
  live s (match s.alu? k with
    | some u => act u
    | none => .refused (.noSuchComponent k))

/-- A clock command that is refused while a cycle is pending (R125). -/
def unlessPending (s : State) (k : Host.Outcome State Fault Refusal) : Host.Outcome State Fault Refusal :=
  live s (if s.cyclePending then .refused .cyclePending else k)

end Sys2Proof.Machine
end

