-- ==== Sys2Proof/Machine/Bus.lean ====
section
/-! DEFINITION. The Bus family (R100 to R104): reading and writing one line or the whole value of either bus. Nothing
listens to a bus: no meaning here touches any other state. -/

namespace Sys2Proof.Machine

open Sys2Proof

/-- `BUS.GET(index)` (R100). -/
def execBusGet (b : BusId) (i : Int) (s : State) : Host.Outcome State Fault Refusal :=
  live s (.next (s.answer (replyOfBit (getBit (s.bus b) i))))

/-- The effect of `BUS.SET`: one line, or nothing and `NoValue` for an index out of range (R101, D10). -/
def State.setBusLine (s : State) (b : BusId) (i : Int) (value : Option Int) : State :=
  match bitIndex? Config.busLines i with
  | some n => (s.setBus b (setBitAt (s.bus b) n value)).answer .nothing
  | none => s.answer .noValue

/-- `BUS.SET(index, value?)` (R101). -/
def execBusSet (b : BusId) (i : Int) (value : Option Int) (s : State) : Host.Outcome State Fault Refusal :=
  live s (.next (s.setBusLine b i value))

/-- `BUS.ASSIGN(v)` (R102); a value outside `[0, 2^32)` is refused (D11). -/
def execBusAssign (b : BusId) (v : Int) (s : State) : Host.Outcome State Fault Refusal :=
  live s (if assignable v then .next ((s.setBus b (BitVec.ofInt 32 v)).answer .nothing)
    else .refused (.assignOutOfRange v))

/-- `BUS.READ()` (R103). -/
def execBusRead (b : BusId) (s : State) : Host.Outcome State Fault Refusal :=
  live s (.next (s.answer (.word (s.bus b))))

end Sys2Proof.Machine
end

