-- ==== Sys2Proof/Machine/Register.lean ====
section
/-! DEFINITION. The Register family: the rising handler of R131, the micro-operations of `REF`'s two registers (R132,
R133), and the accessors of any Register, free-standing or embedded (R135, R136). -/

namespace Sys2Proof.Machine

open Sys2Proof

/-- The handler of a Register (R131): the drive check first, then the load check, which sees the bus the drive wrote. -/
def State.registerHandler (s : State) (r : RegRef) : State :=
  match s.reg? r with
  | none => s
  | some reg =>
    let s1 := if s.asserted reg.cfg.driveIndex then s.driveReg r else s
    if s1.asserted reg.cfg.loadIndex then s1.loadReg r else s1

/-- `REG.LOAD R0` (R133). -/
def execRegLoadR0 (s : State) : Host.Outcome State Fault Refusal :=
  onReg s ⟨Config.refR0, .whole⟩ fun _ => .next (s.loadReg ⟨Config.refR0, .whole⟩)

/-- `REG.DRIVE R0` (R132). -/
def execRegDriveR0 (s : State) : Host.Outcome State Fault Refusal :=
  onReg s ⟨Config.refR0, .whole⟩ fun _ => .next (s.driveReg ⟨Config.refR0, .whole⟩)

/-- `REG.LOAD R1` (R133). -/
def execRegLoadR1 (s : State) : Host.Outcome State Fault Refusal :=
  onReg s ⟨Config.refR1, .whole⟩ fun _ => .next (s.loadReg ⟨Config.refR1, .whole⟩)

/-- `REG.DRIVE R1` (R132). -/
def execRegDriveR1 (s : State) : Host.Outcome State Fault Refusal :=
  onReg s ⟨Config.refR1, .whole⟩ fun _ => .next (s.driveReg ⟨Config.refR1, .whole⟩)

/-- `REG.GET(r, bit_idx)` (R135). -/
def execRegGet (r : RegRef) (i : Int) (s : State) : Host.Outcome State Fault Refusal :=
  onReg s r fun reg => .next (s.answer (replyOfBit (getBit reg.value i)))

/-- The effect of a `SET` on a register: one bit, or nothing and `NoValue` for an index out of range (R136, D10). -/
def State.setRegBit (s : State) (r : RegRef) (reg : Register) (i : Int) (value : Option Int) : State :=
  match bitIndex? reg.cfg.width i with
  | some n => (s.updateReg r (fun _ x => setBitAt x n value)).answer .nothing
  | none => s.answer .noValue

/-- `REG.SET(r, bit_idx, value?)` (R136). -/
def execRegSet (r : RegRef) (i : Int) (value : Option Int) (s : State) : Host.Outcome State Fault Refusal :=
  onReg s r fun reg => .next (s.setRegBit r reg i value)

end Sys2Proof.Machine
end

