-- ==== Sys2Proof/Machine/Alu.lean ====
section
/-! DEFINITION. The ALU family: the recompute handler of R164, the micro-operations of `REF`'s ALU (R161 to R163, R165,
R166) and the accessors (R168). The handlers of `A`, `B` and `OUT` are the Register's (R131). -/

namespace Sys2Proof.Machine

open Sys2Proof

/-- The recompute handler of an ALU (R164): gated by no line; the subtract bit is read from the control word now. -/
def State.recomputeHandler (s : State) (k : Nat) : State :=
  match s.alu? k with
  | none => s
  | some u => s.recompute k (s.cbus.getLsbD u.cfg.subIndex)

/-- `ALU.A_LOAD` (R161): `REG.LOAD` of `A`. -/
def execAluALoad (s : State) : Host.Outcome State Fault Refusal :=
  onReg s ⟨Config.refAlu, .a⟩ fun _ => .next (s.loadReg ⟨Config.refAlu, .a⟩)

/-- `ALU.B_LOAD` (R162): `REG.LOAD` of `B`. -/
def execAluBLoad (s : State) : Host.Outcome State Fault Refusal :=
  onReg s ⟨Config.refAlu, .b⟩ fun _ => .next (s.loadReg ⟨Config.refAlu, .b⟩)

/-- `ALU.OUT_DRIVE` (R163): `REG.DRIVE` of `OUT`. -/
def execAluOutDrive (s : State) : Host.Outcome State Fault Refusal :=
  onReg s ⟨Config.refAlu, .out⟩ fun _ => .next (s.driveReg ⟨Config.refAlu, .out⟩)

/-- `ALU.ADD` (R165): the recompute with the subtract bit 0. -/
def execAluAdd (s : State) : Host.Outcome State Fault Refusal :=
  onAlu s Config.refAlu fun _ => .next (s.recompute Config.refAlu false)

/-- `ALU.SUB` (R166): the recompute with the subtract bit 1. -/
def execAluSub (s : State) : Host.Outcome State Fault Refusal :=
  onAlu s Config.refAlu fun _ => .next (s.recompute Config.refAlu true)

/-- The register that an `ALU.GET` reads: the one named, or `OUT` when none is (R168, D13). -/
def aluGetTarget (k : Nat) : Option AluReg → RegRef
  | some n => ⟨k, n.part⟩
  | none => ⟨k, .out⟩

/-- `ALU.GET(u, bit_idx)`, of the named register or of `OUT` (R168). -/
def execAluGet (k : Nat) (named : Option AluReg) (i : Int) (s : State) : Host.Outcome State Fault Refusal :=
  onReg s (aluGetTarget k named) fun reg => .next (s.answer (replyOfBit (getBit reg.value i)))

/-- `ALU.SET(u, bit_idx, value?)` of the named register; refused when none is named (R168, D13). -/
def execAluSet (k : Nat) (named : Option AluReg) (i : Int) (value : Option Int) (s : State) :
    Host.Outcome State Fault Refusal :=
  match named with
  | some n => onReg s ⟨k, n.part⟩ fun reg => .next (s.setRegBit ⟨k, n.part⟩ reg i value)
  | none => live s (.refused .aluSetNamesNoRegister)

end Sys2Proof.Machine
end

