-- ==== Sys2Proof/Machine/Counter.lean ====
section
/-! DEFINITION. The Counter family: the rising handler of R141, the micro-operations of `REF`'s counter (R142 to R144) and
the accessors (R146, R147). -/

namespace Sys2Proof.Machine

open Sys2Proof

/-- The handler of a Counter (R141): load, then increment, then drive, each seeing what the one before it did. -/
def State.counterHandler (s : State) (k : Nat) : State :=
  match s.counter? k with
  | none => s
  | some c =>
    let s1 := if s.asserted c.cfg.loadIndex then s.loadCounter k else s
    let s2 := if s1.asserted c.cfg.incrementIndex then s1.incCounter k else s1
    if s2.asserted c.cfg.driveIndex then s2.driveCounter k else s2

/-- `CNT.LOAD` (R142). -/
def execCntLoad (s : State) : Host.Outcome State Fault Refusal :=
  onCounter s Config.refCnt fun _ => .next (s.loadCounter Config.refCnt)

/-- `CNT.INC` (R143). -/
def execCntInc (s : State) : Host.Outcome State Fault Refusal :=
  onCounter s Config.refCnt fun _ => .next (s.incCounter Config.refCnt)

/-- `CNT.DRIVE` (R144). -/
def execCntDrive (s : State) : Host.Outcome State Fault Refusal :=
  onCounter s Config.refCnt fun _ => .next (s.driveCounter Config.refCnt)

/-- `CNT.GET(c, bit_idx)` (R146). -/
def execCntGet (k : Nat) (i : Int) (s : State) : Host.Outcome State Fault Refusal :=
  onCounter s k fun c => .next (s.answer (replyOfBit (getBit c.value i)))

/-- The effect of a `SET` on a counter (R147, D10). -/
def State.setCounterBit (s : State) (k : Nat) (c : Counter) (i : Int) (value : Option Int) : State :=
  match bitIndex? c.cfg.width i with
  | some n => (s.setComp k (.counter { c with value := setBitAt c.value n value })).answer .nothing
  | none => s.answer .noValue

/-- `CNT.SET(c, bit_idx, value?)` (R147). -/
def execCntSet (k : Nat) (i : Int) (value : Option Int) (s : State) : Host.Outcome State Fault Refusal :=
  onCounter s k fun c => .next (s.setCounterBit k c i value)

end Sys2Proof.Machine
end

