-- ==== Sys2Proof/Machine/Memory.lean ====
section
/-! DEFINITION. The Memory family: the cell handler of R152, the micro-operations of `REF`'s memory (R151, R153, R154) and
the accessors of the addressed cell (R157, R158). -/

namespace Sys2Proof.Machine

open Sys2Proof

/-- The cell handler of a Memory (R152): one address check before either action, then the write, then the read, which
sees the cell the write left. -/
def State.cellHandler (s : State) (k : Nat) : State :=
  match s.memory? k with
  | none => s
  | some m =>
    let w := s.asserted m.cfg.writeIndex
    let r := s.asserted m.cfg.readIndex
    if w || r then
      s.withCell k fun t =>
        let t1 := if w then t.storeCell k else t
        if r then t1.fetchCell k else t1
    else s

/-- `MEM.ADDR_LOAD` (R151): `REG.LOAD` of the address register. -/
def execMemAddrLoad (s : State) : Host.Outcome State Fault Refusal :=
  onReg s ⟨Config.refMem, .mar⟩ fun _ => .next (s.loadReg ⟨Config.refMem, .mar⟩)

/-- `MEM.READ` (R154); an address with no cell takes the fault (R156). -/
def execMemRead (s : State) : Host.Outcome State Fault Refusal :=
  onMemory s Config.refMem fun _ => .next (s.readMemory Config.refMem)

/-- `MEM.WRITE` (R153); an address with no cell takes the fault (R156). -/
def execMemWrite (s : State) : Host.Outcome State Fault Refusal :=
  onMemory s Config.refMem fun _ => .next (s.writeMemory Config.refMem)

/-- A host access to bit `i` of the addressed cell: the index is checked first, then the address (R157, R158). -/
def State.hostCell (s : State) (m : Memory) (i : Int) (act : Nat → State) : State :=
  match bitIndex? m.cfg.width i with
  | none => s.answer .noValue
  | some n => if m.addressed then act n else (s.raise m.addressFault).answer (.raised m.addressFault)

/-- `MEM.GET(m, bit_idx)` (R157). -/
def execMemGet (k : Nat) (i : Int) (s : State) : Host.Outcome State Fault Refusal :=
  onMemory s k fun m =>
    .next (s.hostCell m i fun n => s.answer (.bit ((m.readCell m.mar.toNat).getLsbD n)))

/-- `MEM.SET(m, bit_idx, value?)` (R158). -/
def execMemSet (k : Nat) (i : Int) (value : Option Int) (s : State) : Host.Outcome State Fault Refusal :=
  onMemory s k fun m =>
    .next (s.hostCell m i fun n =>
      (s.setComp k (.memory (m.writeCell m.mar.toNat (setBitAt (m.readCell m.mar.toNat) n value)))).answer .nothing)

end Sys2Proof.Machine
end

