-- ==== Sys2Proof/Machine/Clock.lean ====
section
/-! DEFINITION. The Clock family (R110 to R125): the dispatch of an edge, the single transition, and the clock's host
commands and timer events. -/

namespace Sys2Proof.Machine

open Sys2Proof

/-! ### The dispatch -/

/-- The invocation of one rising subscriber (R112). -/
def State.invoke (s : State) : Subscriber → State
  | .reg r => s.registerHandler r
  | .counter k => s.counterHandler k
  | .cells k => s.cellHandler k
  | .recompute k => s.recomputeHandler k
  | .observer cb => s.notify cb

/-- `dispatch(CLK.rising)` from the subscriber at position `pos` on (R112): first registered to last registered, each to
completion. A subscriber that fails ends the dispatch: what was done stands, the rest are not invoked, and the caller
learns the position and the reason (R113, R184). Positions count from 0: DESIGN CHOICE (assumption 22). -/
def State.dispatchFrom (pos : Nat) : List Subscriber → State → State
  | [], s => s
  | h :: rest, s =>
    let t := s.invoke h
    match t.fault with
    | none => State.dispatchFrom (pos + 1) rest t
    | some f => { t with reply := .subscriberFailure pos f }

/-- `dispatch(CLK.falling)`: every falling subscriber is a host observer (R28, R121, R124). -/
def State.dispatchFalling (s : State) : State := s.clk.falling.foldl State.notify s

/-- One transition (R111): the phase changes first (D5), then the subscribers of the edge are invoked, positions counted from 0
(DESIGN CHOICE, assumption 22). -/
def State.transition (s : State) : State :=
  match s.clk.phase with
  | .low => State.dispatchFrom 0 s.clk.rising (s.setClk { s.clk with phase := .high })
  | .high => (s.setClk { s.clk with phase := .low }).dispatchFalling

/-! ### Parts of the clock commands -/

/-- `CLK.running <- true`: the free-run timer is armed (R114). -/
def State.startTimer (s : State) : State := s.setClk { s.clk with running := true }

/-- `CLK.running <- false`: the free-run timer is cancelled (R115). -/
def State.stopTimer (s : State) : State := s.setClk { s.clk with running := false }

/-- `CLK.cycle_state <- c` (R117, R118). -/
def State.setCycleState (s : State) (c : CycleState) : State := s.setClk { s.clk with cycleState := c }

/-- The statements of a transaction after a `CLK.STEP()` it made: not executed when the dispatch failed (R188). -/
def State.unlessFailed (s : State) (rest : State → State) : State :=
  match s.fault with
  | none => rest s
  | some _ => s

/-! ### The commands and events -/

/-- `CLK.STEP()` (R111); refused while a cycle is pending (R125). -/
def execClkStep (s : State) : Host.Outcome State Fault Refusal := unlessPending s (.next s.opened.transition)

/-- `CLK.START()` (R114); refused while a cycle is pending (R125). -/
def execClkStart (s : State) : Host.Outcome State Fault Refusal := unlessPending s (.next (s.startTimer.answer .nothing))

/-- `CLK.STOP()` (R115); refused while a cycle is pending (R125). -/
def execClkStop (s : State) : Host.Outcome State Fault Refusal := unlessPending s (.next (s.stopTimer.answer .nothing))

/-- The effect of `set_interval`: stop, update, and restart only if it was running (R116). -/
def State.withInterval (s : State) (ms : Int) : State :=
  let t := s.stopTimer
  let u := t.setClk { t.clk with interval := clampInterval ms }
  if s.clk.running then u.startTimer else u

/-- `CLK.SET_INTERVAL(ms)` (R116); refused while a cycle is pending (R125). -/
def execClkSetInterval (ms : Int) (s : State) : Host.Outcome State Fault Refusal :=
  unlessPending s (.next ((s.withInterval ms).answer .nothing))

/-- The first half of a cycle (R117): stop, the rising step at once, and the falling half left pending. -/
def State.beginCycle (s : State) : State :=
  ((s.opened.stopTimer.setCycleState .pendingRise).transition).unlessFailed (fun t => t.setCycleState .pendingFall)

/-- `CLK.CYCLE()` (R117): a no-op while a cycle is pending; refused with the clock HIGH (D16). -/
def execClkCycle (s : State) : Host.Outcome State Fault Refusal :=
  live s (if s.cyclePending then .next (s.answer .nothing)
    else match s.clk.phase with
      | .low => .next s.beginCycle
      | .high => .refused .cycleFromHigh)

/-- `CLK.ADD_RISING(callback)` (R120): appended, even if it is registered already (D18). -/
def execClkAddRising (cb : Nat) (s : State) : Host.Outcome State Fault Refusal :=
  live s (.next ((s.setClk { s.clk with rising := s.clk.rising ++ [.observer cb] }).answer .nothing))

/-- `CLK.ADD_FALLING(callback)` (R121): appended, even if it is registered already (D18). -/
def execClkAddFalling (cb : Nat) (s : State) : Host.Outcome State Fault Refusal :=
  live s (.next ((s.setClk { s.clk with falling := s.clk.falling ++ [cb] }).answer .nothing))

/-- `CLK.TICK` (R119): the free-run timer's event, enabled exactly while running. -/
def execClkTick (s : State) : Host.Outcome State Fault Refusal :=
  live s (if s.clk.running then .next s.opened.transition else .refused .tickNotEnabled)

/-- The second half of a cycle (R118): the falling step, then `CYCLE_DONE` to the caller. -/
def State.endCycle (s : State) : State :=
  s.opened.transition.unlessFailed (fun t => { t.setCycleState .idle with reply := .cycleDone })

/-- `CLK.CYCLE_FALL` (R118): the deferred falling half, enabled exactly while it is pending. -/
def execClkCycleFall (s : State) : Host.Outcome State Fault Refusal :=
  live s (match s.clk.cycleState with
    | .pendingFall => .next s.endCycle
    | .pendingRise => .refused .cycleFallNotEnabled
    | .idle => .refused .cycleFallNotEnabled)

end Sys2Proof.Machine
end

