-- ==== Sys2Proof/Machine/GateCalls.lean ====
section
/-! DEFINITION. The gate functions as calls (R80, R90): each returns its result and touches nothing else. -/

namespace Sys2Proof.Machine

open Sys2Proof

/-- `AND(a, b)` (R91). -/
def execAnd (a b : Bit) (s : State) : Host.Outcome State Fault Refusal := live s (.next (s.answer (.bit (andGate a b))))

/-- `OR(a, b)` (R92). -/
def execOr (a b : Bit) (s : State) : Host.Outcome State Fault Refusal := live s (.next (s.answer (.bit (orGate a b))))

/-- `NAND(a, b)` (R93). -/
def execNand (a b : Bit) (s : State) : Host.Outcome State Fault Refusal :=
  live s (.next (s.answer (.bit (nandGate a b))))

/-- `NOR(a, b)` (R94). -/
def execNor (a b : Bit) (s : State) : Host.Outcome State Fault Refusal := live s (.next (s.answer (.bit (norGate a b))))

/-- `XOR(a, b)` (R95). -/
def execXor (a b : Bit) (s : State) : Host.Outcome State Fault Refusal := live s (.next (s.answer (.bit (xorGate a b))))

/-- `FULLADD(cin, a, b)` (R96). -/
def execFullAdd (cin a b : Bit) (s : State) : Host.Outcome State Fault Refusal :=
  live s (.next (s.answer (.sumCarry (fulladd cin a b).1 (fulladd cin a b).2)))

end Sys2Proof.Machine
end

