-- ==== Sys2Proof/Machine/Dispatch.lean ====
section
/-! DEFINITION. The meaning of every instruction: one arm a constructor. -/

namespace Sys2Proof.Machine

open Sys2Proof

-- The micro-operations of REF (30_encoding.md R73), each on its own; then the clock, the buses, the components, the gates.
def exec (i : Instr) (s : State) : Host.Outcome State Fault Refusal :=
  match i with
  | .regLoadR0 => Sys2Proof.Machine.execRegLoadR0 s
  | .regDriveR0 => Sys2Proof.Machine.execRegDriveR0 s
  | .regLoadR1 => Sys2Proof.Machine.execRegLoadR1 s
  | .regDriveR1 => Sys2Proof.Machine.execRegDriveR1 s
  | .cntLoad => Sys2Proof.Machine.execCntLoad s
  | .cntInc => Sys2Proof.Machine.execCntInc s
  | .cntDrive => Sys2Proof.Machine.execCntDrive s
  | .memAddrLoad => Sys2Proof.Machine.execMemAddrLoad s
  | .memRead => Sys2Proof.Machine.execMemRead s
  | .memWrite => Sys2Proof.Machine.execMemWrite s
  | .aluALoad => Sys2Proof.Machine.execAluALoad s
  | .aluBLoad => Sys2Proof.Machine.execAluBLoad s
  | .aluOutDrive => Sys2Proof.Machine.execAluOutDrive s
  | .aluAdd => Sys2Proof.Machine.execAluAdd s
  | .aluSub => Sys2Proof.Machine.execAluSub s
  | .clkStep => Sys2Proof.Machine.execClkStep s
  | .clkStart => Sys2Proof.Machine.execClkStart s
  | .clkStop => Sys2Proof.Machine.execClkStop s
  | .clkSetInterval ms => Sys2Proof.Machine.execClkSetInterval ms s
  | .clkCycle => Sys2Proof.Machine.execClkCycle s
  | .clkAddRising cb => Sys2Proof.Machine.execClkAddRising cb s
  | .clkAddFalling cb => Sys2Proof.Machine.execClkAddFalling cb s
  | .clkTick => Sys2Proof.Machine.execClkTick s
  | .clkCycleFall => Sys2Proof.Machine.execClkCycleFall s
  | .busGet b j => Sys2Proof.Machine.execBusGet b j s
  | .busSet b j v => Sys2Proof.Machine.execBusSet b j v s
  | .busAssign b v => Sys2Proof.Machine.execBusAssign b v s
  | .busRead b => Sys2Proof.Machine.execBusRead b s
  | .regGet r j => Sys2Proof.Machine.execRegGet r j s
  | .regSet r j v => Sys2Proof.Machine.execRegSet r j v s
  | .cntGet k j => Sys2Proof.Machine.execCntGet k j s
  | .cntSet k j v => Sys2Proof.Machine.execCntSet k j v s
  | .memGet k j => Sys2Proof.Machine.execMemGet k j s
  | .memSet k j v => Sys2Proof.Machine.execMemSet k j v s
  | .aluGet k n j => Sys2Proof.Machine.execAluGet k n j s
  | .aluSet k n j v => Sys2Proof.Machine.execAluSet k n j v s
  | .gateAnd a b => Sys2Proof.Machine.execAnd a b s
  | .gateOr a b => Sys2Proof.Machine.execOr a b s
  | .gateNand a b => Sys2Proof.Machine.execNand a b s
  | .gateNor a b => Sys2Proof.Machine.execNor a b s
  | .gateXor a b => Sys2Proof.Machine.execXor a b s
  | .fullAdd cin a b => Sys2Proof.Machine.execFullAdd cin a b s

end Sys2Proof.Machine
end

