-- ==== Sys2Proof/Machine/Schedule.lean ====
section
/-! DEFINITION. Which transaction comes next, and how a control word is placed before the clock. -/

namespace Sys2Proof.Machine

open Sys2Proof

/-- The next transaction and the state it starts from (R10): the agenda's first entry; when the agenda is empty, the
timer event that is enabled, `CLK.TICK` while running or `CLK.CYCLE_FALL` while a falling half is pending (D19; they are
never enabled together, R125); otherwise none. Every order of host and timer transactions is some agenda. -/
def State.nextTransaction (s : State) : Option (Instr × State) :=
  match s.agenda with
  | i :: rest => some (i, { s with agenda := rest })
  | [] =>
    if s.clk.running then some (.clkTick, s)
    else if s.clk.cycleState = .pendingFall then some (.clkCycleFall, s)
    else none

/-- A micro-operation is no transaction of its own (R10, R73). -/
def isTransaction (i : Instr) : Bool := i.micro?.isNone

/-- `s` with the control word on the control bus, the clock LOW and idle, and the host about to step: the next transaction
is the rising edge that performs the word (R61, R70, R79). -/
def State.armWord (s : State) (w : Word) : State :=
  { s with
    cbus := w
    clk := { s.clk with phase := .low, cycleState := .idle }
    agenda := .clkStep :: s.agenda }

end Sys2Proof.Machine
end

