-- ==== Sys2Proof/Machine/Step.lean ====
section
/-! DEFINITION. One step of the machine: one atomic transaction of the host or the timer (R10, R62). -/

namespace Sys2Proof.Machine

open Sys2Proof

/-- One step: the next transaction, executed. With nothing on the agenda and no timer event enabled the circuit rests in
its state until the host acts. After a fault nothing has a meaning (R188). -/
def step (s : State) : Host.Outcome State Fault Refusal :=
  match s.fault with
  | some f => .fault f
  | none =>
    match s.nextTransaction with
    | none => .next s
    | some (i, t) => if isTransaction i then exec i t else .refused .notATransaction

/-- `s` with a table row's word placed where the very next step takes its control word from. The bits above `nbits` are
zero. -/
def State.withFetchWord (s : State) (nbits w : Nat) : State := s.armWord (BitVec.ofNat 32 (w % 2 ^ nbits))

end Sys2Proof.Machine
end

