-- ==== Sys2Proof/Machine/Construct.lean ====
section
/-! DEFINITION. The composition root (R175, R201): a circuit built from untyped parameters, component by component, with the
refusals of R181 and 92_eei_decisions.md D9, D22, D27, D33. What it yields is the reset state of the circuit (R200). -/

namespace Sys2Proof.Machine

open Sys2Proof

/-- Which of the three required references a constructor was called with (R130, R181). -/
structure Refs where
  clock : Bool
  dataBus : Bool
  controlBus : Bool
  deriving DecidableEq, Repr

/-- All three references present. -/
def Refs.all : Refs := { clock := true, dataBus := true, controlBus := true }

/-- One action of the composition root: a constructor call (R130, R140, R150, R160) or the subscription of a display
callback (R120, R121). -/
inductive BuildAction where
  | register (refs : Refs) (width : Int) (loadIndex driveIndex : Option Int)
  | counter (refs : Refs) (width : Int) (loadIndex incrementIndex driveIndex : Option Int)
  | memory (refs : Refs) (width size : Int) (addressLoadIndex readIndex writeIndex : Option Int)
  | alu (refs : Refs) (width : Int) (aLoadIndex bLoadIndex outDriveIndex subIndex : Option Int)
  | addRising (callback : Nat)
  | addFalling (callback : Nat)
  deriving DecidableEq, Repr

/-- A missing clock, data bus or control bus is a `ConfigurationError` (R181). -/
def checkRefs (r : Refs) : Except ConfigError Unit :=
  if !r.clock then .error .missingClock
  else if !r.dataBus then .error .missingDataBus
  else if !r.controlBus then .error .missingControlBus
  else .ok ()

/-- A width: refused below 1, clamped to 32 above (R130, D9). -/
def checkWidth (w : Int) : Except ConfigError Nat := if w < 1 then .error (.badWidth w) else .ok (min w.toNat 32)

/-- A number of cells: refused below 1 (R150, D33). -/
def checkSize (n : Int) : Except ConfigError Nat := if n < 1 then .error (.badSize n) else .ok n.toNat

/-- A control-line index: `none`, or an integer of at least 0 (R72, D22). -/
def checkLine : Option Int → Except ConfigError Line
  | none => .ok none
  | some i => if i < 0 then .error (.badLine i) else .ok (some i.toNat)

/-- An ALU's `sub_index`: an integer of 0 to 31 (R72, R160, D22). -/
def checkSub : Option Int → Except ConfigError Nat
  | none => .error (.badSubIndex none)
  | some i => if 0 ≤ i ∧ i < 32 then .ok i.toNat else .error (.badSubIndex (some i))

/-- The configuration a constructor call makes; `none` for a subscription. -/
def BuildAction.cfg? : BuildAction → Except ConfigError (Option CompCfg)
  | .register refs width l d => do
    checkRefs refs
    return some (.register { width := ← checkWidth width, loadIndex := ← checkLine l, driveIndex := ← checkLine d })
  | .counter refs width l i d => do
    checkRefs refs
    return some (.counter { width := ← checkWidth width, loadIndex := ← checkLine l, incrementIndex := ← checkLine i,
                            driveIndex := ← checkLine d })
  | .memory refs width size a r w => do
    checkRefs refs
    return some (.memory { width := ← checkWidth width, size := ← checkSize size, addressLoadIndex := ← checkLine a,
                           readIndex := ← checkLine r, writeIndex := ← checkLine w })
  | .alu refs width a b o sub => do
    checkRefs refs
    return some (.alu { width := ← checkWidth width, aLoadIndex := ← checkLine a, bLoadIndex := ← checkLine b,
                        outDriveIndex := ← checkLine o, subIndex := ← checkSub sub })
  | .addRising _ => .ok none
  | .addFalling _ => .ok none

/-- One action carried out on the circuit built so far. -/
def State.build (s : State) (a : BuildAction) : Except ConfigError State :=
  match a.cfg? with
  | .error e => .error e
  | .ok (some c) => .ok (s.addComponent c)
  | .ok none =>
    match a with
    | .addRising cb => .ok { s with clk := { s.clk with rising := s.clk.rising ++ [.observer cb] } }
    | .addFalling cb => .ok { s with clk := { s.clk with falling := s.clk.falling ++ [cb] } }
    | _ => .ok s

/-- The whole construction, in order; the first refusal refuses the circuit (R181: no half-built component). `interval` is
`CLOCK_INTERVAL_INIT`, whose legal values are 2 to 5000 (R5). DESIGN CHOICE: the spec names no refusal of another value, and it is
stored unchecked (assumption 21). -/
def construct (interval : Nat) (plan : List BuildAction) : Except ConfigError State :=
  plan.foldlM State.build (State.empty interval)

/-- The constructor calls of `REF` (R78), as the examples of R130, R140, R150 and R160 give them. -/
def refPlan : List BuildAction :=
  [ .counter Refs.all 4 (some 4) (some 5) (some 6),
    .memory Refs.all 8 16 (some 7) (some 8) (some 9),
    .alu Refs.all 8 (some 10) (some 11) (some 12) (some 13),
    .register Refs.all 8 (some 0) (some 1),
    .register Refs.all 4 (some 2) (some 3) ]

end Sys2Proof.Machine
end

