-- ==== Sys2Proof/Safety.lean ====
section
/-! DEFINITION. What claims are stated in: the invariant of the machine, the premise that a run has not faulted (R188), the
circuits whose wiring is `REF`'s, the part of the state that the core itself owns, and the four error classes of R180. -/

namespace Sys2Proof.Machine

open Sys2Proof

/-- The premise every claim about a run carries (R188). -/
abbrev State.unfaulted (s : State) : Prop := s.fault = none

/-- A component whose configuration construction accepts and whose cells are in canonical form. -/
def Component.ok (c : Component) : Prop :=
  c.cfg.legal = true ∧ ∀ m, c = .memory m → m.wf

/-- The invariant that every step keeps. -/
structure State.Inv (s : State) : Prop where
  /-- Every component is legal and every Memory canonical (R5, R30). -/
  comps : ∀ c ∈ s.comps, c.ok
  /-- Every rising subscriber names what the circuit has (R28). -/
  rising : ∀ h ∈ s.clk.rising, h.fits s.wiring.shape = true
  /-- The interval stays in its bounds (R25). -/
  interval : Config.intervalMin ≤ s.clk.interval ∧ s.clk.interval ≤ Config.intervalMax
  /-- While a cycle is pending the clock is HIGH and not running (R117, R125). -/
  pending : s.clk.cycleState ≠ .idle → s.clk.phase = .high ∧ s.clk.running = false
  /-- `PENDING_RISE` is never seen between transactions of a run that has not faulted (R27, R188). -/
  pendingRise : s.clk.cycleState = .pendingRise → s.fault ≠ none

/-- The circuit is `REF` (R78): its components have `REF`'s configuration and its handlers are registered in `REF`'s
order, with no host observer. -/
structure State.isRef (s : State) : Prop where
  wiring : s.wiring = Config.ref
  rising : s.clk.rising = Wiring.handlers Config.ref

/-- The state the core's own rules speak of: everything but the model's `agenda`, `reply` and `notified`, and the Clock's
subscriber lists. -/
structure CoreView where
  phase : Phase
  interval : Nat
  running : Bool
  cycleState : CycleState
  dbus : Word
  cbus : Word
  comps : List Component
  fault : Option Fault
  deriving DecidableEq, Repr

/-- The core view of a state. -/
def State.core (s : State) : CoreView :=
  { phase := s.clk.phase, interval := s.clk.interval, running := s.clk.running, cycleState := s.clk.cycleState
    dbus := s.dbus, cbus := s.cbus, comps := s.comps, fault := s.fault }

/-- The micro-operations performed one after another; a fault ends the sequence (R113). -/
def performAll : List Micro → State → State
  | [], s => s
  | m :: rest, s =>
    match (s.perform m).fault with
    | none => performAll rest (s.perform m)
    | some _ => s.perform m

/-- Instructions executed one after another; anything but a next state, and a fault recorded in one, ends the sequence. -/
def execAll : List Instr → State → Host.Outcome State Fault Refusal
  | [], s => .next s
  | i :: rest, s =>
    match exec i s with
    | .next t => match t.fault with | none => execAll rest t | some _ => .next t
    | .fault f => .fault f
    | .refused r => .refused r

/-- The value of one cell, as a number, read through the model's read of a cell. -/
def State.cellAt (s : State) (k a : Nat) : Option Nat := (s.memory? k).map fun m => (m.readCell a).toNat

/-- The lines a component listens to (R70, R73). -/
def lineMasks : CompCfg → Word
  | .register c => lineMask c.loadIndex ||| lineMask c.driveIndex
  | .counter c => lineMask c.loadIndex ||| lineMask c.incrementIndex ||| lineMask c.driveIndex
  | .memory c => lineMask c.addressLoadIndex ||| lineMask c.readIndex ||| lineMask c.writeIndex
  | .alu c => lineMask c.aLoadIndex ||| lineMask c.bLoadIndex ||| lineMask c.outDriveIndex ||| lineMask (some c.subIndex)

/-- The lines that some component of the circuit listens to; the others have no effect (R75). -/
def wiringMask (w : Wiring) : Word := w.foldr (fun c m => lineMasks c ||| m) 0#32

/-- What a `SET` with this value makes of a bit (R101): 1 for a positive value, 0 for zero, the complement for an omitted or
a negative one. -/
def setsBit (value : Option Int) (old new : Bit) : Prop :=
  (∀ x, value = some x → 0 < x → new = true) ∧ (value = some 0 → new = false) ∧
  (value = none → new = !old) ∧ (∀ x, value = some x → x < 0 → new = !old)

/-- The callback of a host observer; none for a core handler (R120). -/
def observerOf : Subscriber → Option Nat
  | .observer cb => some cb
  | .reg _ => none
  | .counter _ => none
  | .cells _ => none
  | .recompute _ => none

/-- The callback that a construction action puts on the rising list (R120). -/
def BuildAction.rising? : BuildAction → Option Nat
  | .addRising cb => some cb
  | .addFalling _ => none
  | .register _ _ _ _ => none
  | .counter _ _ _ _ _ => none
  | .memory _ _ _ _ _ _ => none
  | .alu _ _ _ _ _ _ => none

/-- The callback that a construction action puts on the falling list (R121). -/
def BuildAction.falling? : BuildAction → Option Nat
  | .addRising _ => none
  | .addFalling cb => some cb
  | .register _ _ _ _ => none
  | .counter _ _ _ _ _ => none
  | .memory _ _ _ _ _ _ => none
  | .alu _ _ _ _ _ _ => none

/-- A control-line parameter that construction accepts: absent, or not negative (R72, D22). -/
def lineOk (l : Option Int) : Prop := ∀ i, l = some i → 0 ≤ i

/-- A constructor call yields the component `c` when its parameters are good, and is refused otherwise. -/
def State.decides (s : State) (a : BuildAction) (good : Prop) (c : CompCfg) : Prop :=
  (good → s.build a = .ok (s.addComponent c)) ∧ (¬ good → ∃ e, s.build a = .error e)

/-- An index in `[0, width)`. -/
abbrev inRange (i : Int) (width : Nat) : Prop := 0 ≤ i ∧ i < width

/-- The error classes (R180). -/
inductive ErrorClass where
  | configurationError | outOfRange | invalidMemoryAddress | subscriberFailure
  deriving DecidableEq, Repr

/-- Whether a class is fatal (R180): `OutOfRange` alone returns absence. -/
def ErrorClass.fatal : ErrorClass → Bool
  | .configurationError => true
  | .outOfRange => false
  | .invalidMemoryAddress => true
  | .subscriberFailure => true

/-- The class of an error that a reply reports to the caller (R182, R183, R184). -/
def Reply.errorClass : Reply → Option ErrorClass
  | .noValue => some .outOfRange
  | .raised _ => some .invalidMemoryAddress
  | .subscriberFailure _ _ => some .subscriberFailure
  | .nothing => none
  | .bit _ => none
  | .word _ => none
  | .sumCarry _ _ => none
  | .cycleDone => none

/-- The class of a refused construction (R181). -/
def configErrorClass (_ : ConfigError) : ErrorClass := .configurationError

end Sys2Proof.Machine
end

