-- ==== Sys2Proof/Certificates/Slice0/Obligations.lean ====
section
/-! DEFINITION. The statements for the provers. A state here is any state whatever, of any circuit, unless a hypothesis says
otherwise; `s.fault = none` is the premise that R188 lays on every claim about a run. -/

open Sys2Proof Sys2Proof.Machine

/-! ### Gates (40_gates.md) -/

/-- R91 to R95: the five two-input gates give the values of their tables and touch nothing but the reply. -/
def Obligations.TwoInputGatesFollowTheirTables : Prop :=
  ∀ (a b : Bit) (s : State), s.fault = none →
    exec (.gateAnd a b) s = .next { s with reply := .bit (a && b), notified := [] } ∧
    exec (.gateOr a b) s = .next { s with reply := .bit (a || b), notified := [] } ∧
    exec (.gateNand a b) s = .next { s with reply := .bit (!(a && b)), notified := [] } ∧
    exec (.gateNor a b) s = .next { s with reply := .bit (!(a || b)), notified := [] } ∧
    exec (.gateXor a b) s = .next { s with reply := .bit (a != b), notified := [] }

/-- R96: the full adder gives parity and majority, its results add up to the number of inputs that are 1, and the order of its
arguments does not matter. -/
def Obligations.FullAdderIsParityAndMajority : Prop :=
  ∀ (cin a b : Bit),
    (∀ s : State, s.fault = none → exec (.fullAdd cin a b) s = .next { s with
      reply := .sumCarry (a ^^ b ^^ cin) (a && b || a && cin || b && cin), notified := [] }) ∧
    2 * (a && b || a && cin || b && cin).toNat + (a ^^ b ^^ cin).toNat = a.toNat + b.toNat + cin.toNat ∧
    fulladd cin a b = (a ^^ b ^^ cin, a && b || a && cin || b && cin) ∧
    fulladd cin a b = fulladd a cin b ∧ fulladd cin a b = fulladd cin b a ∧ fulladd cin a b = fulladd b a cin

/-- 30_encoding.md R81 (derived there): bit `2a + b` of a gate's constant, or bit `4 cin + 2a + b` of the full adder's, is the
output. -/
def Obligations.LookupConstantsHoldTheTables : Prop :=
  ∀ (cin a b : Bit),
    andTable.getLsbD (2 * a.toNat + b.toNat) = andGate a b ∧ orTable.getLsbD (2 * a.toNat + b.toNat) = orGate a b ∧
    nandTable.getLsbD (2 * a.toNat + b.toNat) = nandGate a b ∧ norTable.getLsbD (2 * a.toNat + b.toNat) = norGate a b ∧
    xorTable.getLsbD (2 * a.toNat + b.toNat) = xorGate a b ∧
    fulladdSumTable.getLsbD (4 * cin.toNat + 2 * a.toNat + b.toNat) = (fulladd cin a b).1 ∧
    fulladdCarryTable.getLsbD (4 * cin.toNat + 2 * a.toNat + b.toNat) = (fulladd cin a b).2

/-! ### Buses (41_bus.md) -/

/-- R100: the bit at an index in `[0, 32)`, `NoValue` at any other, and no state changes. That the range is `[0, 32)` on every
Bus is decision D1. -/
def Obligations.BusGetReadsOneLine : Prop :=
  ∀ (b : BusId) (i : Int) (s : State), s.fault = none →
    (inRange i 32 → exec (.busGet b i) s = .next { s with reply := .bit ((s.bus b).getLsbD i.toNat), notified := [] }) ∧
    (¬ inRange i 32 → exec (.busGet b i) s = .next { s with reply := .noValue, notified := [] })

/-- R103: the whole value of either bus, and no state changes; the command has no encoding. -/
def Obligations.BusReadReturnsTheValue : Prop :=
  ∀ s : State, s.fault = none →
    exec (.busRead .dbus) s = .next { s with reply := .word s.dbus, notified := [] } ∧
    exec (.busRead .cbus) s = .next { s with reply := .word s.cbus, notified := [] } ∧
    encode (.busRead .dbus) = none ∧ encode (.busRead .cbus) = none

/-- R101 and decision D10: a `SET` changes one line of its bus by the rule of the value, keeps the 31 others and the other bus,
and triggers nothing; an index out of range changes nothing and replies `NoValue`. -/
def Obligations.BusSetChangesOneLine : Prop :=
  ∀ (b : BusId) (i : Int) (v : Option Int) (s : State), s.fault = none →
    (inRange i 32 → ∃ w : Word, exec (.busSet b i v) s = .next { s.setBus b w with reply := .nothing, notified := [] } ∧
      setsBit v ((s.bus b).getLsbD i.toNat) (w.getLsbD i.toNat) ∧
      ∀ j, j ≠ i.toNat → w.getLsbD j = (s.bus b).getLsbD j) ∧
    (¬ inRange i 32 → exec (.busSet b i v) s = .next { s with reply := .noValue, notified := [] })

/-- R102 and decision D11: an integer in `[0, 2^32)` becomes the whole value of its bus; any other is refused. -/
def Obligations.BusAssignReplacesTheValue : Prop :=
  ∀ (b : BusId) (v : Int) (s : State), s.fault = none →
    (0 ≤ v → v < 4294967296 → ∃ w : Word, (w.toNat : Int) = v ∧
      exec (.busAssign b v) s = .next { s.setBus b w with reply := .nothing, notified := [] }) ∧
    (v < 0 ∨ 4294967296 ≤ v → exec (.busAssign b v) s = .refused (.assignOutOfRange v))

/-! ### Clock (42_clock.md) -/

/-- R110, R111: `step()` from LOW is one transition to HIGH. Of the Clock only the phase changes, and neither the control bus
nor the configuration does, whatever the subscribers do; that the phase shows the new level even if a subscriber fails is
decision D5. -/
def Obligations.StepFromLowRaisesThePhase : Prop :=
  ∀ s : State, s.fault = none → s.clk.cycleState = .idle → s.clk.phase = .low →
    ∃ t, exec .clkStep s = .next t ∧ t.clk = { s.clk with phase := .high } ∧ t.cbus = s.cbus ∧ t.agenda = s.agenda ∧
      t.wiring = s.wiring

/-- R124 (derived there): a falling step changes the phase and nothing else of the core; it invokes the falling observers. -/
def Obligations.FallingStepChangesOnlyThePhase : Prop :=
  ∀ s : State, s.fault = none → s.clk.cycleState = .idle → s.clk.phase = .high →
    exec .clkStep s = .next { s with
      clk := { s.clk with phase := .low }, reply := .nothing, notified := s.clk.falling }

/-- R114, R115 and decision D29: `start()` and `stop()` write `running`, whatever it was, and nothing else; the phase is
retained and no transition happens. -/
def Obligations.StartAndStopWriteRunning : Prop :=
  ∀ s : State, s.fault = none → s.clk.cycleState = .idle →
    exec .clkStart s = .next { s with clk := { s.clk with running := true }, reply := .nothing, notified := [] } ∧
    exec .clkStop s = .next { s with clk := { s.clk with running := false }, reply := .nothing, notified := [] }

/-- R116: `set_interval` clamps to 2 to 5000, leaves `running` as it was, and performs no transition. -/
def Obligations.SetIntervalClamps : Prop :=
  ∀ (ms : Int) (s : State), s.fault = none → s.clk.cycleState = .idle →
    ∃ n : Nat, exec (.clkSetInterval ms) s = .next { s with
        clk := { s.clk with interval := n }, reply := .nothing, notified := [] } ∧
      (ms < 2 → n = 2) ∧ (5000 < ms → n = 5000) ∧ (2 ≤ ms → ms ≤ 5000 → (n : Int) = ms)

/-- R117: `cycle()` from LOW stops free-run and performs the rising step at once; the falling half is then pending, unless the
dispatch failed, after which the rest of `cycle()` is not executed (R188, decision D15). -/
def Obligations.CycleStopsThenSteps : Prop :=
  ∀ s : State, s.fault = none → s.clk.cycleState = .idle → s.clk.phase = .low →
    ∃ v, exec .clkStep { s with clk := { s.clk with running := false } } = .next v ∧
      (v.fault = none → exec .clkCycle s = .next { v with clk := { v.clk with cycleState := .pendingFall } }) ∧
      (v.fault ≠ none → exec .clkCycle s = .next { v with clk := { v.clk with cycleState := .pendingRise } })

/-- R117, U10: a `cycle()` while one is pending changes no state and dispatches nothing. -/
def Obligations.CycleWhilePendingIsNoOp : Prop :=
  ∀ s : State, s.fault = none → s.clk.cycleState ≠ .idle →
    exec .clkCycle s = .next { s with reply := .nothing, notified := [] }

/-- R118 and decision D38: the deferred half of a cycle performs the falling step, ends the cycle and signals `CYCLE_DONE`. -/
def Obligations.CycleFallEndsTheCycle : Prop :=
  ∀ s : State, s.fault = none → s.clk.cycleState = .pendingFall → s.clk.phase = .high →
    exec .clkCycleFall s = .next { s with
      clk := { s.clk with phase := .low, cycleState := .idle }, reply := .cycleDone, notified := s.clk.falling }

/-- R119: a tick is enabled exactly while running, and then it is a `step()` that leaves `running` true. -/
def Obligations.TickIsAStepWhileRunning : Prop :=
  ∀ s : State, s.fault = none →
    (s.clk.running = true → s.clk.cycleState = .idle → ∃ t, exec .clkTick s = .next t ∧ exec .clkStep s = .next t ∧
      t.clk.running = true ∧ t.clk.phase ≠ s.clk.phase) ∧
    (s.clk.running = false → exec .clkTick s = .refused .tickNotEnabled)

/-- R117, R118, R125 and decisions D16, D17: what the clock refuses, and when. -/
def Obligations.ClockRefusesWhenTheSpecGivesNoMeaning : Prop :=
  ∀ s : State, s.fault = none →
    (s.clk.cycleState ≠ .idle →
      exec .clkStep s = .refused .cyclePending ∧ exec .clkStart s = .refused .cyclePending ∧
      exec .clkStop s = .refused .cyclePending ∧ ∀ ms, exec (.clkSetInterval ms) s = .refused .cyclePending) ∧
    (s.clk.cycleState = .idle → s.clk.phase = .high → exec .clkCycle s = .refused .cycleFromHigh) ∧
    (s.clk.cycleState ≠ .pendingFall → exec .clkCycleFall s = .refused .cycleFallNotEnabled)

/-- R120, R121 and decision D18: a subscription appends its callback, whether or not it is there already, and touches nothing
else. -/
def Obligations.SubscriptionsAppend : Prop :=
  ∀ (cb : Nat) (s : State), s.fault = none →
    exec (.clkAddRising cb) s = .next { s with
      clk := { s.clk with rising := s.clk.rising ++ [.observer cb] }, reply := .nothing, notified := [] } ∧
    exec (.clkAddFalling cb) s = .next { s with
      clk := { s.clk with falling := s.clk.falling ++ [cb] }, reply := .nothing, notified := [] }

/-- R112, R120: observers registered after a circuit's components are invoked once each, in order, by a rising dispatch that
does not fail, after every core handler. -/
def Obligations.ObserversAreToldInOrder : Prop :=
  ∀ (s t : State) (obs : List Nat), s.fault = none → s.clk.cycleState = .idle → s.clk.phase = .low →
    s.clk.rising = Wiring.handlers s.wiring ++ obs.map .observer → exec .clkStep s = .next t → t.fault = none →
    t.notified = obs ∧
    exec .clkStep { s with clk := { s.clk with rising := Wiring.handlers s.wiring } } =
      .next { t with clk := { t.clk with rising := Wiring.handlers s.wiring }, notified := [] }

/-! ### Registers (43_register.md) -/

/-- R133: `REG.LOAD` copies the low lines of the data bus into the register, for the two Registers of `REF`, the address register
and `A` and `B`, of whatever width; everything else is unchanged, the data bus included. The control-word bits are 0, 2, 7, 10, 11. -/
def Obligations.RegisterLoadTakesTheBus : Prop :=
  ∀ s : State, s.fault = none →
    (∀ r, s.comps[3]? = some (.register r) → exec .regLoadR0 s = .next { s with
      comps := s.comps.set 3 (.register { r with value := s.dbus.setWidth r.cfg.width }) }) ∧
    (∀ r, s.comps[4]? = some (.register r) → exec .regLoadR1 s = .next { s with
      comps := s.comps.set 4 (.register { r with value := s.dbus.setWidth r.cfg.width }) }) ∧
    (∀ m, s.comps[1]? = some (.memory m) → exec .memAddrLoad s = .next { s with
      comps := s.comps.set 1 (.memory { m with mar := s.dbus.setWidth m.cfg.width }) }) ∧
    (∀ u, s.comps[2]? = some (.alu u) → exec .aluALoad s = .next { s with
      comps := s.comps.set 2 (.alu { u with a := s.dbus.setWidth u.cfg.width }) }) ∧
    (∀ u, s.comps[2]? = some (.alu u) → exec .aluBLoad s = .next { s with
      comps := s.comps.set 2 (.alu { u with b := s.dbus.setWidth u.cfg.width }) }) ∧
    encode .regLoadR0 = some 0x1#32 ∧ encode .regLoadR1 = some 0x4#32 ∧ encode .memAddrLoad = some 0x80#32 ∧
    encode .aluALoad = some 0x400#32 ∧ encode .aluBLoad = some 0x800#32

/-- R132: `REG.DRIVE` puts the zero-extended value on all 32 lines of the data bus and changes nothing else, for the two Registers
of `REF` and for `OUT`. The control-word bits are 1, 3, 12. -/
def Obligations.RegisterDriveReplacesTheBus : Prop :=
  ∀ s : State, s.fault = none →
    (∀ r, s.comps[3]? = some (.register r) → exec .regDriveR0 s = .next { s with dbus := r.value.setWidth 32 } ∧
      ∀ j, r.cfg.width ≤ j → (r.value.setWidth 32).getLsbD j = false) ∧
    (∀ r, s.comps[4]? = some (.register r) → exec .regDriveR1 s = .next { s with dbus := r.value.setWidth 32 } ∧
      ∀ j, r.cfg.width ≤ j → (r.value.setWidth 32).getLsbD j = false) ∧
    (∀ u, s.comps[2]? = some (.alu u) → exec .aluOutDrive s = .next { s with dbus := u.out.setWidth 32 } ∧
      ∀ j, u.cfg.width ≤ j → (u.out.setWidth 32).getLsbD j = false) ∧
    encode .regDriveR0 = some 0x2#32 ∧ encode .regDriveR1 = some 0x8#32 ∧ encode .aluOutDrive = some 0x1000#32

/-- R135: `REG.GET` of any Register, free-standing or embedded, reads the bit at an index below the register's own width and
replies `NoValue` at any other; no state changes. The width itself is readable. -/
def Obligations.RegGetReadsOneBit : Prop :=
  ∀ (r : RegRef) (i : Int) (s : State) (reg : Register), s.fault = none → s.reg? r = some reg →
    s.width? r.comp = some reg.cfg.width ∧
    (inRange i reg.cfg.width → exec (.regGet r i) s = .next { s with
      reply := .bit (reg.value.getLsbD i.toNat), notified := [] }) ∧
    (¬ inRange i reg.cfg.width → exec (.regGet r i) s = .next { s with reply := .noValue, notified := [] }) ∧
    encode (.regGet r i) = none

/-- R136 and decision D10: `REG.SET` changes one bit of one register by the rule of the value. Every other register, every
counter, every cell, both buses, the Clock and the configuration are unchanged; an index out of range changes nothing. -/
def Obligations.RegSetChangesOneBit : Prop :=
  ∀ (r : RegRef) (i : Int) (v : Option Int) (s : State) (reg : Register), s.fault = none → s.reg? r = some reg →
    (inRange i reg.cfg.width → ∃ (t : State) (x : BitVec reg.cfg.width),
      exec (.regSet r i v) s = .next t ∧ t.reg? r = some { reg with value := x } ∧
      setsBit v (reg.value.getLsbD i.toNat) (x.getLsbD i.toNat) ∧
      (∀ j, j ≠ i.toNat → x.getLsbD j = reg.value.getLsbD j) ∧
      (∀ r', r' ≠ r → t.reg? r' = s.reg? r') ∧ (∀ k, t.counter? k = s.counter? k) ∧
      (∀ k a, t.cellAt k a = s.cellAt k a) ∧ t.wiring = s.wiring ∧
      t = { s with comps := t.comps, reply := .nothing, notified := [] }) ∧
    (¬ inRange i reg.cfg.width → exec (.regSet r i v) s = .next { s with reply := .noValue, notified := [] })

/-- R131, R134 and decision D2: a Register's handler drives before it loads, so with both lines asserted the bus takes the
register's value and the register keeps it: no exchange. -/
def Obligations.RegisterHandlerDrivesBeforeItLoads : Prop :=
  ∀ (s : State) (r : RegRef) (reg : Register), s.reg? r = some reg → reg.cfg.width ≤ 32 →
    let drive := lineAsserted s.cbus reg.cfg.driveIndex
    let load := lineAsserted s.cbus reg.cfg.loadIndex
    (s.invoke (.reg r)).dbus = (if drive then reg.value.setWidth 32 else s.dbus) ∧
    (s.invoke (.reg r)).reg? r =
      some { reg with value := if load && !drive then s.dbus.setWidth reg.cfg.width else reg.value } ∧
    (∀ r', r' ≠ r → (s.invoke (.reg r)).reg? r' = s.reg? r') ∧ (s.invoke (.reg r)).fault = s.fault

/-! ### Counter (44_counter.md) -/

/-- R142: `CNT.LOAD` copies the low lines of the data bus into the counter and changes nothing else. -/
def Obligations.CounterLoadTakesTheBus : Prop :=
  ∀ (s : State) (c : Counter), s.fault = none → s.comps[0]? = some (.counter c) →
    exec .cntLoad s = .next { s with
      comps := s.comps.set 0 (.counter { c with value := s.dbus.setWidth c.cfg.width }) } ∧
    encode .cntLoad = some 0x10#32

/-- R143: `CNT.INC`, through its chain of full adders, adds 1 modulo `2^W` and changes nothing else (how the 1 enters the chain is
decision D8, which no value depends on); at `2^W - 1` the result is 0. -/
def Obligations.CounterIncrementAddsOne : Prop :=
  ∀ (s : State) (c : Counter), s.fault = none → s.comps[0]? = some (.counter c) →
    ∃ x : BitVec c.cfg.width,
      exec .cntInc s = .next { s with comps := s.comps.set 0 (.counter { c with value := x }) } ∧
      x.toNat = (c.value.toNat + 1) % 2 ^ c.cfg.width ∧ (c.value.toNat = 2 ^ c.cfg.width - 1 → x.toNat = 0) ∧
      encode .cntInc = some 0x20#32

/-- R144 and decision D7: `CNT.DRIVE` puts the zero-extended value on all 32 lines of the data bus and changes nothing else. -/
def Obligations.CounterDriveReplacesTheBus : Prop :=
  ∀ (s : State) (c : Counter), s.fault = none → s.comps[0]? = some (.counter c) →
    exec .cntDrive s = .next { s with dbus := c.value.setWidth 32 } ∧ encode .cntDrive = some 0x40#32 ∧
    ∀ j, c.cfg.width ≤ j → (c.value.setWidth 32).getLsbD j = false

/-- The Counter's handler of 44_counter.md section 2: it loads, then increments, then drives, each seeing what the one before it
did; all seven rows of its table of combinations, and no line asserted. That an increment sees the load is the spec's own
resolution of a conflict in the source (90_conflicts.md C2), and that a drive replaces all 32 lines is decision D7; both are
assumption 6. -/
def Obligations.CounterHandlerComposesLeftToRight : Prop :=
  ∀ (s : State) (k : Nat) (c : Counter), s.comps[k]? = some (.counter c) →
    let v1 := if lineAsserted s.cbus c.cfg.loadIndex then s.dbus.setWidth c.cfg.width else c.value
    let v2 := if lineAsserted s.cbus c.cfg.incrementIndex then v1 + 1#c.cfg.width else v1
    s.invoke (.counter k) = { s with
      comps := s.comps.set k (.counter { c with value := v2 })
      dbus := if lineAsserted s.cbus c.cfg.driveIndex then v2.setWidth 32 else s.dbus }

/-- R146, R147 and decisions D10, D34: the accessors of a Counter, of any circuit. -/
def Obligations.CounterAccessors : Prop :=
  ∀ (k : Nat) (i : Int) (v : Option Int) (s : State) (c : Counter), s.fault = none → s.comps[k]? = some (.counter c) →
    (inRange i c.cfg.width →
      exec (.cntGet k i) s = .next { s with reply := .bit (c.value.getLsbD i.toNat), notified := [] } ∧
      ∃ x : BitVec c.cfg.width, exec (.cntSet k i v) s = .next { s with
          comps := s.comps.set k (.counter { c with value := x }), reply := .nothing, notified := [] } ∧
        setsBit v (c.value.getLsbD i.toNat) (x.getLsbD i.toNat) ∧
        ∀ j, j ≠ i.toNat → x.getLsbD j = c.value.getLsbD j) ∧
    (¬ inRange i c.cfg.width →
      exec (.cntGet k i) s = .next { s with reply := .noValue, notified := [] } ∧
      exec (.cntSet k i v) s = .next { s with reply := .noValue, notified := [] })

/-! ### Memory (45_memory_ops.md, 20_memory.md) -/

/-- R153: `MEM.WRITE` at an address with a cell stores the low lines of the data bus there. Every other cell, the address register,
the data bus and everything else are unchanged, and the cells stay in canonical form. -/
def Obligations.MemWriteStoresOneCell : Prop :=
  ∀ (s : State) (m : Memory), s.fault = none → s.comps[1]? = some (.memory m) → m.wf → m.mar.toNat < m.cfg.size →
    ∃ l : List (Nat × BitVec m.cfg.width),
      exec .memWrite s = .next { s with comps := s.comps.set 1 (.memory { m with cells := l }) } ∧
      (∀ a, cellsRead l a = if a = m.mar.toNat then s.dbus.setWidth m.cfg.width else cellsRead m.cells a) ∧
      Memory.wf { m with cells := l } ∧ encode .memWrite = some 0x200#32

/-- R154 and decision D7: `MEM.READ` at an address with a cell puts the zero-extended cell on all 32 lines of the data bus; no cell
and nothing else changes. -/
def Obligations.MemReadDrivesTheCell : Prop :=
  ∀ (s : State) (m : Memory), s.fault = none → s.comps[1]? = some (.memory m) → m.mar.toNat < m.cfg.size →
    exec .memRead s = .next { s with dbus := (cellsRead m.cells m.mar.toNat).setWidth 32 } ∧
    encode .memRead = some 0x100#32 ∧ ∀ j, m.cfg.width ≤ j → ((cellsRead m.cells m.mar.toNat).setWidth 32).getLsbD j = false

/-- R156, R157, R158, R183, R188 and decisions D14, D15: an access whose address register names no cell records the fault with the
address; no cell, no bus and nothing else of the circuit changes. The index of a host access is checked first. -/
def Obligations.AddressWithoutCellFaults : Prop :=
  ∀ (s : State) (m : Memory), s.fault = none →
    (s.comps[1]? = some (.memory m) → m.cfg.size ≤ m.mar.toNat →
      exec .memWrite s = .next { s with fault := some (.invalidMemoryAddress m.mar.toNat) } ∧
      exec .memRead s = .next { s with fault := some (.invalidMemoryAddress m.mar.toNat) }) ∧
    (∀ (k : Nat) (i : Int) (v : Option Int), s.comps[k]? = some (.memory m) → m.cfg.size ≤ m.mar.toNat →
      inRange i m.cfg.width →
      exec (.memGet k i) s = .next { s with
        fault := some (.invalidMemoryAddress m.mar.toNat), reply := .raised (.invalidMemoryAddress m.mar.toNat),
        notified := [] } ∧
      exec (.memSet k i v) s = .next { s with
        fault := some (.invalidMemoryAddress m.mar.toNat), reply := .raised (.invalidMemoryAddress m.mar.toNat),
        notified := [] })

/-- R152, R155: the cell handler of any Memory makes one address check, then writes, then reads; with both lines asserted the bus
takes the value just written. With neither it does nothing, whatever the address register holds. -/
def Obligations.CellHandlerWritesThenReads : Prop :=
  ∀ (s : State) (k : Nat) (m : Memory), s.fault = none → s.comps[k]? = some (.memory m) → m.wf →
    let write := lineAsserted s.cbus m.cfg.writeIndex
    let read := lineAsserted s.cbus m.cfg.readIndex
    (write = false → read = false → s.invoke (.cells k) = s) ∧
    ((write || read) = true → m.cfg.size ≤ m.mar.toNat →
      s.invoke (.cells k) = { s with fault := some (.invalidMemoryAddress m.mar.toNat) }) ∧
    (m.mar.toNat < m.cfg.size → ∃ l : List (Nat × BitVec m.cfg.width),
      s.invoke (.cells k) = { s with
        comps := s.comps.set k (.memory { m with cells := l })
        dbus := if read then (cellsRead l m.mar.toNat).setWidth 32 else s.dbus } ∧
      ∀ a, cellsRead l a =
        if write = true ∧ a = m.mar.toNat then s.dbus.setWidth m.cfg.width else cellsRead m.cells a)

/-- R157, R158 and decisions D10, D13: the accessors of a Memory reach one bit of the addressed cell; an index out of range replies
`NoValue` even where the address names no cell. -/
def Obligations.MemoryAccessors : Prop :=
  ∀ (k : Nat) (i : Int) (v : Option Int) (s : State) (m : Memory), s.fault = none → s.comps[k]? = some (.memory m) →
    m.wf →
    (inRange i m.cfg.width → m.mar.toNat < m.cfg.size →
      exec (.memGet k i) s = .next { s with
        reply := .bit ((cellsRead m.cells m.mar.toNat).getLsbD i.toNat), notified := [] } ∧
      ∃ (l : List (Nat × BitVec m.cfg.width)) (x : BitVec m.cfg.width),
        exec (.memSet k i v) s = .next { s with
          comps := s.comps.set k (.memory { m with cells := l }), reply := .nothing, notified := [] } ∧
        (∀ a, cellsRead l a = if a = m.mar.toNat then x else cellsRead m.cells a) ∧
        setsBit v ((cellsRead m.cells m.mar.toNat).getLsbD i.toNat) (x.getLsbD i.toNat) ∧
        ∀ j, j ≠ i.toNat → x.getLsbD j = (cellsRead m.cells m.mar.toNat).getLsbD j) ∧
    (¬ inRange i m.cfg.width →
      exec (.memGet k i) s = .next { s with reply := .noValue, notified := [] } ∧
      exec (.memSet k i v) s = .next { s with reply := .noValue, notified := [] })

/-! ### ALU (46_alu.md) -/

/-- R165, R166, R167: the bit-serial chain gives `A + B`, or `A - B` when subtracting, modulo `2^W`; the result goes into `OUT` and
nothing else changes, no flag of any kind among it. -/
def Obligations.AluRecomputeAddsOrSubtracts : Prop :=
  ∀ (s : State) (u : Alu), s.fault = none → s.comps[2]? = some (.alu u) →
    ∃ x y : BitVec u.cfg.width,
      exec .aluAdd s = .next { s with comps := s.comps.set 2 (.alu { u with out := x }) } ∧
      exec .aluSub s = .next { s with comps := s.comps.set 2 (.alu { u with out := y }) } ∧
      x.toNat = (u.a.toNat + u.b.toNat) % 2 ^ u.cfg.width ∧
      y.toNat = (u.a.toNat + (2 ^ u.cfg.width - 1 - u.b.toNat) + 1) % 2 ^ u.cfg.width ∧
      (y.toNat : Int) = ((u.a.toNat : Int) - u.b.toNat) % (2 ^ u.cfg.width : Nat) ∧
      encode .aluAdd = some 0#32 ∧ encode .aluSub = some 0x2000#32

/-- R164 (a), (c), (d) and decision D6: after every rising edge that does not fault, in any circuit whose subscribers were registered
by construction, every ALU's `OUT` holds the result for the `A`, `B` and subtract bit at the end of the edge, whichever lines were
asserted. -/
def Obligations.EveryRisingEdgeLeavesTheAluResult : Prop :=
  ∀ (s t : State) (obs : List Nat), s.fault = none → s.clk.cycleState = .idle → s.clk.phase = .low →
    s.clk.rising = Wiring.handlers s.wiring ++ obs.map .observer → exec .clkStep s = .next t → t.fault = none →
    ∀ (k : Nat) (u : Alu), t.comps[k]? = some (.alu u) →
      u.out = if t.cbus.getLsbD u.cfg.subIndex then u.a - u.b else u.a + u.b

/-- R168 and decision D13: `ALU.GET` reads the named register, or `OUT` when none is named; `ALU.SET` of a named register is that
register's own `SET`, and with none named it is refused. -/
def Obligations.AluAccessors : Prop :=
  ∀ (k : Nat) (i : Int) (v : Option Int) (s : State) (u : Alu), s.fault = none → s.comps[k]? = some (.alu u) →
    (inRange i u.cfg.width →
      exec (.aluGet k none i) s = .next { s with reply := .bit (u.out.getLsbD i.toNat), notified := [] } ∧
      exec (.aluGet k (some .out) i) s = .next { s with reply := .bit (u.out.getLsbD i.toNat), notified := [] } ∧
      exec (.aluGet k (some .a) i) s = .next { s with reply := .bit (u.a.getLsbD i.toNat), notified := [] } ∧
      exec (.aluGet k (some .b) i) s = .next { s with reply := .bit (u.b.getLsbD i.toNat), notified := [] }) ∧
    (¬ inRange i u.cfg.width → ∀ n, exec (.aluGet k n i) s = .next { s with reply := .noValue, notified := [] }) ∧
    (∀ n : AluReg, ∃ t, exec (.aluSet k (some n) i v) s = .next t ∧ exec (.regSet ⟨k, n.part⟩ i v) s = .next t) ∧
    exec (.aluSet k none i v) s = .refused .aluSetNamesNoRegister

/-! ### The control word (30_encoding.md) -/

/-- R73, R78: the words of the fifteen rows of format CW, written out, decode to their rows, and the encoder gives the words back;
a word of another length is rejected. -/
def Obligations.TableWordsDecode : Prop :=
  [ (0x0001, Instr.regLoadR0), (0x0002, .regDriveR0), (0x0004, .regLoadR1), (0x0008, .regDriveR1), (0x0010, .cntLoad),
    (0x0020, .cntInc), (0x0040, .cntDrive), (0x0080, .memAddrLoad), (0x0100, .memRead), (0x0200, .memWrite),
    (0x0400, .aluALoad), (0x0800, .aluBLoad), (0x1000, .aluOutDrive), (0x0000, .aluAdd), (0x2000, .aluSub) ].all
    (fun p => decodeTableWord 32 p.1 == some p.2 && encode p.2 == some (BitVec.ofNat 32 p.1)) = true ∧
  decodeTableWord 16 0x0001 = none

/-- R73 and the opcode table: in `REF` a row is performed exactly when the control word, masked by the row's line, equals the row's
match; rows are not mutually exclusive, and exactly one form of the recompute is among them. -/
def Obligations.RowIsSelectedByMaskAndMatch : Prop :=
  ∀ (w : Word) (i : Instr) (m : Micro), i.micro? = some m →
    (i ∈ decodeRef w ↔ some (w &&& lineMask (m.line Config.ref)) = encode i)

/-- R70, R73, R75: for every wiring and every control word, decoding the word into micro-operations and encoding them all again gives
back exactly the bits that some component listens to; in `REF` those are bits 13 to 0. -/
def Obligations.ControlWordRoundTrip : Prop :=
  (∀ (wir : Wiring) (w : Word), encodeAll wir (decode wir (Wiring.handlers wir) w) = w &&& wiringMask wir) ∧
  wiringMask Config.ref = 0x3FFF#32

/-- R75: bits that no component listens to have no effect: two control words that agree on the others decode alike, in every
wiring. -/
def Obligations.InertBitsDecodeToNothing : Prop :=
  ∀ (wir : Wiring) (v w : Word), v &&& wiringMask wir = w &&& wiringMask wir →
    decode wir (Wiring.handlers wir) v = decode wir (Wiring.handlers wir) w

/-! ### Steps and edges (00_scope.md, 20_memory.md, 60_exceptions.md, 70_reset_and_hazards.md) -/

/-- R10, R119, R118: one step performs the agenda's first transaction; with an empty agenda the timer event that is enabled; and
with none enabled the circuit rests. A micro-operation is no transaction. The agenda is the model's own (assumption 3). -/
def Obligations.StepPerformsTheNextTransaction : Prop :=
  ∀ s : State, s.fault = none →
    (∀ i rest, s.agenda = i :: rest → isTransaction i = true → step s = exec i { s with agenda := rest }) ∧
    (∀ i rest, s.agenda = i :: rest → isTransaction i = false → step s = .refused .notATransaction) ∧
    (s.agenda = [] → s.clk.running = true → step s = exec .clkTick s) ∧
    (s.agenda = [] → s.clk.running = false → s.clk.cycleState = .pendingFall → step s = exec .clkCycleFall s) ∧
    (s.agenda = [] → s.clk.running = false → s.clk.cycleState ≠ .pendingFall → step s = .next s)

/-- R58, R73, R112, R113: in any circuit, with any subscribers in any order, a rising step performs exactly the micro-operations that
the control word decodes to, one after another in registration order, each seeing what the earlier ones did, up to the first
fault. -/
def Obligations.RisingEdgePerformsTheDecodedWord : Prop :=
  ∀ s : State, s.fault = none → s.clk.cycleState = .idle → s.clk.phase = .low →
    ∃ t, exec .clkStep s = .next t ∧
      t.core = (performAll (decode s.wiring s.clk.rising s.cbus) { s with clk := { s.clk with phase := .high } }).core

/-- R73, R78: in `REF` the step that fetches a control word executes, in order, the instructions of the table that the word decodes
to; it answers their state, and its reply names the failure when one faults. -/
def Obligations.StepExecutesTheFetchedWord : Prop :=
  ∀ (s : State) (w : Word), s.fault = none → s.isRef →
    ∃ u r, execAll (decodeRef w) { s with
        cbus := w, clk := { s.clk with phase := .high, cycleState := .idle }, reply := .nothing, notified := [] } = .next u ∧
      step (s.withFetchWord 32 w.toNat) = .next { u with reply := r } ∧ (u.fault = none → r = .nothing)

/-- R188, R189: after a fault no instruction and no step has a meaning: each answers the recorded fault. -/
def Obligations.FaultIsSticky : Prop :=
  ∀ (s : State) (f : Fault), s.fault = some f → step s = .fault f ∧ ∀ i, exec i s = .fault f

/-- R113, R156, R184, program P6: in `REF`, reading at an address with no cell on an edge that also loads `R0` aborts the edge at the
memory, the third subscriber (position 2, counted from 0: assumption 22): the phase is HIGH, the fault is recorded, and no bus, register, counter or cell has changed, `R0` and
`OUT` among them. -/
def Obligations.FaultAbortsTheEdge : Prop :=
  ∀ (s : State) (m : Memory), s.fault = none → s.isRef → s.comps[1]? = some (.memory m) → 16 ≤ m.mar.toNat →
    step (s.withFetchWord 32 0x101) = .next { s with
      cbus := 0x101#32, clk := { s.clk with phase := .high, cycleState := .idle }
      fault := some (.invalidMemoryAddress m.mar.toNat)
      reply := .subscriberFailure 2 (.invalidMemoryAddress m.mar.toNat), notified := [] }

/-- R184: within the core only a Memory can fault, with an address register that names no cell, and the address is what is
recorded. -/
def Obligations.OnlyAMemoryCanFault : Prop :=
  ∀ (i : Instr) (s t : State) (f : Fault), s.fault = none → exec i s = .next t → t.fault = some f →
    ∃ k m, t.memory? k = some m ∧ m.cfg.size ≤ m.mar.toNat ∧ f = .invalidMemoryAddress m.mar.toNat

/-- R203: in `REF` the word `{R0D, R1L}` moves `R0` to `R1` in one edge, since `R0` is registered first, and `{R1D, R0L}` does not
move `R1` to `R0`, which takes the stale bus. Of the ALU only `OUT` changes, which every edge recomputes. That a load sees an
earlier drive of the edge is decision D2 (assumption 6). -/
def Obligations.DriverBeforeLoader : Prop :=
  ∀ (s : State) (x : BitVec 8) (y : BitVec 4), s.fault = none → s.isRef →
    s.comps[3]? = some (.register { cfg := { width := 8, loadIndex := some 0, driveIndex := some 1 }, value := x }) →
    s.comps[4]? = some (.register { cfg := { width := 4, loadIndex := some 2, driveIndex := some 3 }, value := y }) →
    (∃ t, step (s.withFetchWord 32 0x6) = .next t ∧ t.fault = none ∧ t.dbus = x.setWidth 32 ∧
      t.comps[4]? = some (.register
        { cfg := { width := 4, loadIndex := some 2, driveIndex := some 3 }, value := x.setWidth 4 }) ∧
      t.comps[3]? = s.comps[3]? ∧ t.comps[1]? = s.comps[1]? ∧ t.comps[0]? = s.comps[0]? ∧
      ∀ u, s.comps[2]? = some (.alu u) → t.comps[2]? = some (.alu { u with out := u.a + u.b })) ∧
    (∃ t, step (s.withFetchWord 32 0x9) = .next t ∧ t.fault = none ∧ t.dbus = y.setWidth 32 ∧
      t.comps[3]? = some (.register
        { cfg := { width := 8, loadIndex := some 0, driveIndex := some 1 }, value := s.dbus.setWidth 8 }) ∧
      t.comps[4]? = s.comps[4]? ∧ t.comps[1]? = s.comps[1]? ∧ t.comps[0]? = s.comps[0]? ∧
      ∀ u, s.comps[2]? = some (.alu u) → t.comps[2]? = some (.alu { u with out := u.a + u.b }))

/-- R210 (derived there): in `REF` the word `{AL, OD}` loads `A` from the bus as it was, drives the result of the previous edge, and
leaves the new result in `OUT`. -/
def Obligations.AluLatencyIsOneEdge : Prop :=
  ∀ (s : State) (u : Alu), s.fault = none → s.isRef → s.comps[2]? = some (.alu u) →
    ∃ t, step (s.withFetchWord 32 0x1400) = .next t ∧ t.fault = none ∧ t.dbus = u.out.setWidth 32 ∧
      t.comps[2]? = some (.alu { u with
        a := s.dbus.setWidth u.cfg.width, out := s.dbus.setWidth u.cfg.width + u.b }) ∧
      ∀ k, k ≠ 2 → t.comps[k]? = s.comps[k]?

/-- R39: no instruction and no step changes a width, a size, a control-line index or the number of components. -/
def Obligations.ConfigurationNeverChanges : Prop :=
  (∀ (i : Instr) (s t : State), exec i s = .next t → t.wiring = s.wiring) ∧
  ∀ s t : State, step s = .next t → t.wiring = s.wiring

/-- R23, R61: the control bus is written only by the host's `BUS.SET` and `BUS.ASSIGN` on it; no micro-operation, clock command, timer
event, accessor or other mutator changes it. -/
def Obligations.OnlyTheHostWritesTheControlBus : Prop :=
  ∀ (i : Instr) (s t : State), (∀ j v, i ≠ .busSet .cbus j v) → (∀ v, i ≠ .busAssign .cbus v) →
    exec i s = .next t → t.cbus = s.cbus

/-- The model completes every well-formed instruction, but for the clock's commands and events in the states where the spec gives
them no meaning (R117, R118, R119, R125): no other refusal and no fault is answered before a fault is recorded. -/
def Obligations.WellFormedInstructionsComplete : Prop :=
  ∀ (i : Instr) (s : State), s.fault = none → i.wf s.wiring.shape = true →
    (∃ t, exec i s = .next t) ∨
    ((i = .clkStep ∨ i = .clkStart ∨ i = .clkStop ∨ ∃ ms, i = .clkSetInterval ms) ∧ s.clk.cycleState ≠ .idle) ∨
    (i = .clkCycle ∧ s.clk.cycleState = .idle ∧ s.clk.phase = .high) ∨
    (i = .clkTick ∧ s.clk.running = false) ∨ (i = .clkCycleFall ∧ s.clk.cycleState ≠ .pendingFall)

/-- An instruction that names a component the circuit does not have, or one of another kind, is refused by name (R20; the
model's choice, assumption 7). -/
def Obligations.MissingComponentsAreRefused : Prop :=
  ∀ (s : State) (k : Nat) (i : Int) (v : Option Int), s.fault = none →
    (∀ r, s.reg? r = none → exec (.regGet r i) s = .refused (.noSuchComponent r.comp) ∧
      exec (.regSet r i v) s = .refused (.noSuchComponent r.comp)) ∧
    (s.counter? k = none → exec (.cntGet k i) s = .refused (.noSuchComponent k) ∧
      exec (.cntSet k i v) s = .refused (.noSuchComponent k)) ∧
    (s.memory? k = none → exec (.memGet k i) s = .refused (.noSuchComponent k) ∧
      exec (.memSet k i v) s = .refused (.noSuchComponent k)) ∧
    (s.alu? k = none → (∀ n, exec (.aluGet k n i) s = .refused (.noSuchComponent k)) ∧
      ∀ n, exec (.aluSet k (some n) i v) s = .refused (.noSuchComponent k))

/-! ### Reset, construction and the invariant -/

/-- R38, R78, R28 and decisions D3, D4: the reset state of `REF`, every field of it. The source gives the phase; the other values
are the spec's own choice, and the interval is open in 2 to 5000. -/
def Obligations.ResetStateIsAsSpecified : Prop :=
  State.reset.clk.phase = .low ∧ State.reset.clk.running = false ∧ State.reset.clk.cycleState = .idle ∧
  2 ≤ State.reset.clk.interval ∧ State.reset.clk.interval ≤ 5000 ∧
  State.reset.clk.rising = [ .counter 0, .reg ⟨1, .mar⟩, .cells 1, .reg ⟨2, .a⟩, .reg ⟨2, .b⟩, .reg ⟨2, .out⟩,
    .recompute 2, .reg ⟨3, .whole⟩, .reg ⟨4, .whole⟩ ] ∧
  State.reset.clk.falling = [] ∧ State.reset.dbus = 0#32 ∧ State.reset.cbus = 0#32 ∧ State.reset.fault = none ∧
  State.reset.wiring = Config.ref ∧ (∀ r reg, State.reset.reg? r = some reg → reg.value = 0#reg.cfg.width) ∧
  (∀ k c, State.reset.counter? k = some c → c.value = 0#c.cfg.width) ∧
  ∀ k m a, State.reset.memory? k = some m → cellsRead m.cells a = 0#m.cfg.width

/-- The reset state has the invariant. -/
def Obligations.ResetHasTheInvariant : Prop := State.reset.Inv

/-- R25, R27, R28, R30, R117, R125: every step keeps the invariant, in every circuit and under every order of host and timer
transactions. -/
def Obligations.EveryStepKeepsTheInvariant : Prop := ∀ s t : State, s.Inv → step s = .next t → t.Inv

/-- 47_host.md and 70_reset_and_hazards.md section 1: every circuit that construction yields starts as 10_state.md section 7 says and
has the invariant; the plan of `REF` yields the reset state. The source gives LOW; the zero values are decision D3, not running,
idle and the empty lists before construction D4, no fault D15 (assumption 1). Intervals outside 2 to 5000 are left out
(assumption 21). -/
def Obligations.ConstructionYieldsAnInvariantState : Prop :=
  (∀ (n : Nat) (plan : List BuildAction) (s : State), 2 ≤ n → n ≤ 5000 → construct n plan = .ok s →
    s.Inv ∧ s.clk.phase = .low ∧ s.clk.running = false ∧ s.clk.cycleState = .idle ∧ s.clk.interval = n ∧ s.fault = none ∧
    s.dbus = 0#32 ∧ s.cbus = 0#32 ∧ s.comps = s.wiring.map Component.fresh ∧
    (∀ r reg, s.reg? r = some reg → reg.value = 0#reg.cfg.width) ∧
    (∀ k c, s.counter? k = some c → c.value = 0#c.cfg.width) ∧
    (∀ k m a, s.memory? k = some m → cellsRead m.cells a = 0#m.cfg.width) ∧
    s.clk.rising.filter (fun h => match h with | .observer _ => false | _ => true) = Wiring.handlers s.wiring ∧
    s.clk.rising.filterMap observerOf = plan.filterMap BuildAction.rising? ∧
    s.clk.falling = plan.filterMap BuildAction.falling?) ∧
  construct Config.clockIntervalInit refPlan = .ok State.reset

/-- 43_register.md section 1, 60_exceptions.md section 1 and decisions D9, D22, D27, D33, for all four constructors: a call is
accepted exactly when the three references are there, the width and the size are at least 1, no line is negative and an ALU's
subtract line is a bus line; then the component joins the circuit with its width clamped to 32 and its lines as given. A
reference that is missing, with nothing else wrong, is the one named; which of several defects is named first is the model's
choice (assumption 14) and is not said. A line of 32 or more, of any component, is never asserted. -/
def Obligations.ConstructorsRefuseAndClamp : Prop :=
  (∀ (s : State) (refs : Refs) (w n : Int) (a b c d : Option Int),
    (s.decides (.register refs w a b) (refs = Refs.all ∧ 1 ≤ w ∧ lineOk a ∧ lineOk b)
      (.register { width := min w.toNat 32, loadIndex := a.map Int.toNat, driveIndex := b.map Int.toNat })) ∧
    (s.decides (.counter refs w a b c) (refs = Refs.all ∧ 1 ≤ w ∧ lineOk a ∧ lineOk b ∧ lineOk c)
      (.counter { width := min w.toNat 32, loadIndex := a.map Int.toNat, incrementIndex := b.map Int.toNat,
                  driveIndex := c.map Int.toNat })) ∧
    (s.decides (.memory refs w n a b c) (refs = Refs.all ∧ 1 ≤ w ∧ 1 ≤ n ∧ lineOk a ∧ lineOk b ∧ lineOk c)
      (.memory { width := min w.toNat 32, size := n.toNat, addressLoadIndex := a.map Int.toNat,
                 readIndex := b.map Int.toNat, writeIndex := c.map Int.toNat })) ∧
    (∀ i : Int, s.decides (.alu refs w a b c (some i))
      (refs = Refs.all ∧ 1 ≤ w ∧ lineOk a ∧ lineOk b ∧ lineOk c ∧ 0 ≤ i ∧ i < 32)
      (.alu { width := min w.toNat 32, aLoadIndex := a.map Int.toNat, bLoadIndex := b.map Int.toNat,
              outDriveIndex := c.map Int.toNat, subIndex := i.toNat })) ∧
    (∃ e, s.build (.alu refs w a b c none) = .error e) ∧
    (1 ≤ w → 1 ≤ n → lineOk a → lineOk b → lineOk c → (∃ i, d = some i ∧ 0 ≤ i ∧ i < 32) →
      ∀ r e, (r, e) ∈ [ (Refs.mk false true true, ConfigError.missingClock), (Refs.mk true false true, .missingDataBus),
        (Refs.mk true true false, .missingControlBus) ] →
      s.build (.register r w a b) = .error e ∧ s.build (.counter r w a b c) = .error e ∧
      s.build (.memory r w n a b c) = .error e ∧ s.build (.alu r w a b c d) = .error e)) ∧
  ∀ (p : Nat) (v : Word), 32 ≤ p → lineAsserted v (some p) = false
end

