-- ==== Sys2Proof/Laws/State.lean ====
section
/-! SUPPORT. One lemma for each field under each update of the state. -/

namespace Sys2Proof.Machine

open Sys2Proof

/-! ### `State.setDbus` -/

@[simp] theorem State.setDbus_clk (s : State) (v : Word) : (s.setDbus v).clk = s.clk := rfl
@[simp] theorem State.setDbus_dbus (s : State) (v : Word) : (s.setDbus v).dbus = v := rfl
@[simp] theorem State.setDbus_cbus (s : State) (v : Word) : (s.setDbus v).cbus = s.cbus := rfl
@[simp] theorem State.setDbus_comps (s : State) (v : Word) : (s.setDbus v).comps = s.comps := rfl
@[simp] theorem State.setDbus_fault (s : State) (v : Word) : (s.setDbus v).fault = s.fault := rfl
@[simp] theorem State.setDbus_agenda (s : State) (v : Word) : (s.setDbus v).agenda = s.agenda := rfl
@[simp] theorem State.setDbus_reply (s : State) (v : Word) : (s.setDbus v).reply = s.reply := rfl
@[simp] theorem State.setDbus_notified (s : State) (v : Word) : (s.setDbus v).notified = s.notified := rfl

/-! ### `State.setComp` -/

@[simp] theorem State.setComp_clk (s : State) (k : Nat) (c : Component) : (s.setComp k c).clk = s.clk := rfl
@[simp] theorem State.setComp_dbus (s : State) (k : Nat) (c : Component) : (s.setComp k c).dbus = s.dbus := rfl
@[simp] theorem State.setComp_cbus (s : State) (k : Nat) (c : Component) : (s.setComp k c).cbus = s.cbus := rfl
@[simp] theorem State.setComp_comps (s : State) (k : Nat) (c : Component) : (s.setComp k c).comps = s.comps.set k c := rfl
@[simp] theorem State.setComp_fault (s : State) (k : Nat) (c : Component) : (s.setComp k c).fault = s.fault := rfl
@[simp] theorem State.setComp_agenda (s : State) (k : Nat) (c : Component) : (s.setComp k c).agenda = s.agenda := rfl
@[simp] theorem State.setComp_reply (s : State) (k : Nat) (c : Component) : (s.setComp k c).reply = s.reply := rfl
@[simp] theorem State.setComp_notified (s : State) (k : Nat) (c : Component) : (s.setComp k c).notified = s.notified := rfl

/-! ### `State.setClk` -/

@[simp] theorem State.setClk_clk (s : State) (c : Clock) : (s.setClk c).clk = c := rfl
@[simp] theorem State.setClk_dbus (s : State) (c : Clock) : (s.setClk c).dbus = s.dbus := rfl
@[simp] theorem State.setClk_cbus (s : State) (c : Clock) : (s.setClk c).cbus = s.cbus := rfl
@[simp] theorem State.setClk_comps (s : State) (c : Clock) : (s.setClk c).comps = s.comps := rfl
@[simp] theorem State.setClk_fault (s : State) (c : Clock) : (s.setClk c).fault = s.fault := rfl
@[simp] theorem State.setClk_agenda (s : State) (c : Clock) : (s.setClk c).agenda = s.agenda := rfl
@[simp] theorem State.setClk_reply (s : State) (c : Clock) : (s.setClk c).reply = s.reply := rfl
@[simp] theorem State.setClk_notified (s : State) (c : Clock) : (s.setClk c).notified = s.notified := rfl

/-! ### `State.answer` -/

@[simp] theorem State.answer_clk (s : State) (r : Reply) : (s.answer r).clk = s.clk := rfl
@[simp] theorem State.answer_dbus (s : State) (r : Reply) : (s.answer r).dbus = s.dbus := rfl
@[simp] theorem State.answer_cbus (s : State) (r : Reply) : (s.answer r).cbus = s.cbus := rfl
@[simp] theorem State.answer_comps (s : State) (r : Reply) : (s.answer r).comps = s.comps := rfl
@[simp] theorem State.answer_fault (s : State) (r : Reply) : (s.answer r).fault = s.fault := rfl
@[simp] theorem State.answer_agenda (s : State) (r : Reply) : (s.answer r).agenda = s.agenda := rfl
@[simp] theorem State.answer_reply (s : State) (r : Reply) : (s.answer r).reply = r := rfl
@[simp] theorem State.answer_notified (s : State) (r : Reply) : (s.answer r).notified = [] := rfl

/-! ### `State.opened` -/

@[simp] theorem State.opened_clk (s : State) : s.opened.clk = s.clk := rfl
@[simp] theorem State.opened_dbus (s : State) : s.opened.dbus = s.dbus := rfl
@[simp] theorem State.opened_cbus (s : State) : s.opened.cbus = s.cbus := rfl
@[simp] theorem State.opened_comps (s : State) : s.opened.comps = s.comps := rfl
@[simp] theorem State.opened_fault (s : State) : s.opened.fault = s.fault := rfl
@[simp] theorem State.opened_agenda (s : State) : s.opened.agenda = s.agenda := rfl
@[simp] theorem State.opened_reply (s : State) : s.opened.reply = .nothing := rfl
@[simp] theorem State.opened_notified (s : State) : s.opened.notified = [] := rfl

/-! ### `State.notify` -/

@[simp] theorem State.notify_clk (s : State) (cb : Nat) : (s.notify cb).clk = s.clk := rfl
@[simp] theorem State.notify_dbus (s : State) (cb : Nat) : (s.notify cb).dbus = s.dbus := rfl
@[simp] theorem State.notify_cbus (s : State) (cb : Nat) : (s.notify cb).cbus = s.cbus := rfl
@[simp] theorem State.notify_comps (s : State) (cb : Nat) : (s.notify cb).comps = s.comps := rfl
@[simp] theorem State.notify_fault (s : State) (cb : Nat) : (s.notify cb).fault = s.fault := rfl
@[simp] theorem State.notify_agenda (s : State) (cb : Nat) : (s.notify cb).agenda = s.agenda := rfl
@[simp] theorem State.notify_reply (s : State) (cb : Nat) : (s.notify cb).reply = s.reply := rfl
@[simp] theorem State.notify_notified (s : State) (cb : Nat) : (s.notify cb).notified = s.notified ++ [cb] := rfl

/-! ### `State.setBus` -/

@[simp] theorem State.setBus_clk (s : State) (b : BusId) (v : Word) : (s.setBus b v).clk = s.clk := by cases b <;> rfl
@[simp] theorem State.setBus_comps (s : State) (b : BusId) (v : Word) : (s.setBus b v).comps = s.comps := by cases b <;> rfl
@[simp] theorem State.setBus_fault (s : State) (b : BusId) (v : Word) : (s.setBus b v).fault = s.fault := by cases b <;> rfl
@[simp] theorem State.setBus_agenda (s : State) (b : BusId) (v : Word) : (s.setBus b v).agenda = s.agenda := by cases b <;> rfl
@[simp] theorem State.setBus_reply (s : State) (b : BusId) (v : Word) : (s.setBus b v).reply = s.reply := by cases b <;> rfl
@[simp] theorem State.setBus_notified (s : State) (b : BusId) (v : Word) : (s.setBus b v).notified = s.notified := by cases b <;> rfl

/-! ### `State.raise` -/

@[simp] theorem State.raise_clk (s : State) (f : Fault) : (s.raise f).clk = s.clk := by unfold State.raise; split <;> rfl
@[simp] theorem State.raise_dbus (s : State) (f : Fault) : (s.raise f).dbus = s.dbus := by unfold State.raise; split <;> rfl
@[simp] theorem State.raise_cbus (s : State) (f : Fault) : (s.raise f).cbus = s.cbus := by unfold State.raise; split <;> rfl
@[simp] theorem State.raise_comps (s : State) (f : Fault) : (s.raise f).comps = s.comps := by unfold State.raise; split <;> rfl
@[simp] theorem State.raise_agenda (s : State) (f : Fault) : (s.raise f).agenda = s.agenda := by unfold State.raise; split <;> rfl
@[simp] theorem State.raise_reply (s : State) (f : Fault) : (s.raise f).reply = s.reply := by unfold State.raise; split <;> rfl
@[simp] theorem State.raise_notified (s : State) (f : Fault) : (s.raise f).notified = s.notified := by unfold State.raise; split <;> rfl

@[simp] theorem State.setBus_dbus_dbus (s : State) (v : Word) : (s.setBus .dbus v).dbus = v := rfl
@[simp] theorem State.setBus_dbus_cbus (s : State) (v : Word) : (s.setBus .dbus v).cbus = s.cbus := rfl
@[simp] theorem State.setBus_cbus_cbus (s : State) (v : Word) : (s.setBus .cbus v).cbus = v := rfl
@[simp] theorem State.setBus_cbus_dbus (s : State) (v : Word) : (s.setBus .cbus v).dbus = s.dbus := rfl
@[simp] theorem State.bus_setBus (s : State) (b : BusId) (v : Word) : (s.setBus b v).bus b = v := by cases b <;> rfl

/-- The other bus keeps its value. -/
theorem State.bus_setBus_ne (s : State) (b c : BusId) (v : Word) (h : c ≠ b) : (s.setBus b v).bus c = s.bus c := by
  cases b <;> cases c <;> first | rfl | exact absurd rfl h

@[simp] theorem State.raise_fault_of_none (s : State) (f : Fault) (h : s.fault = none) :
    s.raise f = { s with fault := some f } := by
  unfold State.raise; rw [h]

@[simp] theorem State.bus_dbus (s : State) : s.bus .dbus = s.dbus := rfl
@[simp] theorem State.bus_cbus (s : State) : s.bus .cbus = s.cbus := rfl

/-- A state is its fields: two states with equal fields are equal. -/
theorem State.ext_fields {s t : State} (h1 : s.clk = t.clk) (h2 : s.dbus = t.dbus) (h3 : s.cbus = t.cbus)
    (h4 : s.comps = t.comps) (h5 : s.fault = t.fault) (h6 : s.agenda = t.agenda) (h7 : s.reply = t.reply)
    (h8 : s.notified = t.notified) : s = t := by
  cases s; cases t; simp_all

end Sys2Proof.Machine
end

