-- ==== Sys2Proof/Laws/Operands.lean ====
section
/-! SUPPORT. The bits of a value, the guards, and what an update of one component or register does to the others. -/

namespace Sys2Proof.Machine

open Sys2Proof

/-! ### Bits -/

theorem bitIndex?_eq_some {w n : Nat} {i : Int} : bitIndex? w i = some n ↔ i = n ∧ n < w := by
  unfold bitIndex?
  split
  · rw [Option.some.injEq]; omega
  · constructor
    · intro h; cases h
    · intro h; omega

theorem bitIndex?_eq_none {w : Nat} {i : Int} : bitIndex? w i = none ↔ i < 0 ∨ (w : Int) ≤ i := by
  unfold bitIndex?
  split <;> simp <;> omega

@[simp] theorem bitIndex?_natCast {w n : Nat} (h : n < w) : bitIndex? w (n : Int) = some n :=
  bitIndex?_eq_some.2 ⟨rfl, h⟩

/-- `writeBit` sets its bit and keeps the others. -/
theorem getLsbD_writeBit {w : Nat} (v : BitVec w) (i j : Nat) (b : Bit) (h : i < w) :
    (writeBit v i b).getLsbD j = if j = i then b else v.getLsbD j := by
  unfold writeBit
  by_cases hj : j < w
  · have h1 : (1#w <<< i).getLsbD j = decide (j = i) := by
      rw [BitVec.getLsbD_shiftLeft, BitVec.getLsbD_one]
      by_cases hji : j = i
      · subst hji; simp; omega
      · simp [hji]; omega
    cases b
    · simp only [Bool.false_eq_true, if_false, BitVec.getLsbD_and, BitVec.getLsbD_not, h1]
      by_cases hji : j = i <;> simp [hji, hj]
    · simp only [if_true, BitVec.getLsbD_or, h1]
      by_cases hji : j = i <;> simp [hji]
  · have : j ≠ i := by omega
    simp only [if_neg this]
    rw [BitVec.getLsbD_of_ge _ _ (by omega), BitVec.getLsbD_of_ge _ _ (by omega)]

theorem getLsbD_setBitAt {w : Nat} (v : BitVec w) (i j : Nat) (value : Option Int) (h : i < w) :
    (setBitAt v i value).getLsbD j = if j = i then setValue value (v.getLsbD i) else v.getLsbD j :=
  getLsbD_writeBit v i j _ h

theorem getLsbD_toBus {w : Nat} (v : BitVec w) (j : Nat) : (toBus v).getLsbD j = (decide (j < 32) && v.getLsbD j) := by
  simp [toBus, BitVec.getLsbD_setWidth]

theorem toNat_fromBus (w : Nat) (v : Word) : (fromBus w v).toNat = v.toNat % 2 ^ w := by
  simp [fromBus, BitVec.toNat_setWidth]

theorem fromBus_toBus {w : Nat} (v : BitVec w) (h : w ≤ 32) : fromBus w (toBus v) = v := by
  apply BitVec.eq_of_toNat_eq
  have := v.isLt
  have h2 : 2 ^ w ≤ 2 ^ 32 := Nat.pow_le_pow_right (by decide) h
  simp only [fromBus, toBus, BitVec.toNat_setWidth]
  rw [Nat.mod_eq_of_lt (a := v.toNat) (by omega), Nat.mod_eq_of_lt this]

theorem clampInterval_bounds (ms : Int) : Config.intervalMin ≤ clampInterval ms ∧ clampInterval ms ≤ Config.intervalMax := by
  simp only [clampInterval, Config.intervalMin, Config.intervalMax]; omega

/-! ### Guards -/

@[simp] theorem live_of_none {s : State} (h : s.fault = none) (k : Host.Outcome State Fault Refusal) : live s k = k := by
  simp [live, h]

@[simp] theorem live_of_some {s : State} {f : Fault} (h : s.fault = some f) (k : Host.Outcome State Fault Refusal) :
    live s k = .fault f := by
  simp [live, h]

theorem live_eq_next {s t : State} {k : Host.Outcome State Fault Refusal} (h : live s k = .next t) :
    s.fault = none ∧ k = .next t := by
  unfold live at h
  split at h
  · cases h
  · exact ⟨‹_›, h⟩

theorem onReg_eq_next {s t : State} {r : RegRef} {k : Register → Host.Outcome State Fault Refusal}
    (h : onReg s r k = .next t) : s.fault = none ∧ ∃ reg, s.reg? r = some reg ∧ k reg = .next t := by
  obtain ⟨h1, h2⟩ := live_eq_next h
  split at h2
  · exact ⟨h1, _, ‹_›, h2⟩
  · cases h2

theorem onCounter_eq_next {s t : State} {k : Nat} {act : Counter → Host.Outcome State Fault Refusal}
    (h : onCounter s k act = .next t) : s.fault = none ∧ ∃ c, s.counter? k = some c ∧ act c = .next t := by
  obtain ⟨h1, h2⟩ := live_eq_next h
  split at h2
  · exact ⟨h1, _, ‹_›, h2⟩
  · cases h2

theorem onMemory_eq_next {s t : State} {k : Nat} {act : Memory → Host.Outcome State Fault Refusal}
    (h : onMemory s k act = .next t) : s.fault = none ∧ ∃ m, s.memory? k = some m ∧ act m = .next t := by
  obtain ⟨h1, h2⟩ := live_eq_next h
  split at h2
  · exact ⟨h1, _, ‹_›, h2⟩
  · cases h2

theorem onAlu_eq_next {s t : State} {k : Nat} {act : Alu → Host.Outcome State Fault Refusal}
    (h : onAlu s k act = .next t) : s.fault = none ∧ ∃ u, s.alu? k = some u ∧ act u = .next t := by
  obtain ⟨h1, h2⟩ := live_eq_next h
  split at h2
  · exact ⟨h1, _, ‹_›, h2⟩
  · cases h2

theorem unlessPending_eq_next {s t : State} {k : Host.Outcome State Fault Refusal} (h : unlessPending s k = .next t) :
    s.fault = none ∧ s.clk.cycleState = .idle ∧ k = .next t := by
  obtain ⟨h1, h2⟩ := live_eq_next h
  split at h2
  · cases h2
  · refine ⟨h1, ?_, h2⟩
    simpa [State.cyclePending] using ‹¬ s.cyclePending = true›

/-! ### Components -/

theorem State.counter?_eq_some {s : State} {k : Nat} {c : Counter} :
    s.counter? k = some c ↔ s.comps[k]? = some (.counter c) := by
  unfold State.counter?; split <;> simp_all

theorem State.memory?_eq_some {s : State} {k : Nat} {m : Memory} :
    s.memory? k = some m ↔ s.comps[k]? = some (.memory m) := by
  unfold State.memory?; split <;> simp_all

theorem State.alu?_eq_some {s : State} {k : Nat} {u : Alu} : s.alu? k = some u ↔ s.comps[k]? = some (.alu u) := by
  unfold State.alu?; split <;> simp_all

theorem State.reg?_eq_some {s : State} {r : RegRef} {reg : Register} :
    s.reg? r = some reg ↔ ∃ c, s.comps[r.comp]? = some c ∧ c.reg? r.part = some reg := by
  unfold State.reg?; rw [Option.bind_eq_some_iff]

/-- Only its own place changes when a component is replaced. -/
theorem State.setComp_comps_ne (s : State) (k j : Nat) (c : Component) (h : j ≠ k) :
    (s.setComp k c).comps[j]? = s.comps[j]? := by
  simp [State.setComp, Ne.symm h]

theorem State.setComp_comps_self (s : State) (k : Nat) (c d : Component) (h : s.comps[k]? = some d) :
    (s.setComp k c).comps[k]? = some c := by
  have := (List.getElem?_eq_some_iff.1 h).1
  simp [State.setComp, this]

/-- The configuration of a component is kept by an update of a register. -/
@[simp] theorem Component.updateReg_cfg (f : (w : Nat) → BitVec w → BitVec w) (p : RegPart) (c : Component) :
    (c.updateReg f p).cfg = c.cfg := by
  cases p <;> cases c <;> rfl

/-- The circuit's configuration is kept when a component is replaced by one of the same configuration. -/
theorem State.wiring_setComp (s : State) (k : Nat) (c d : Component) (h : s.comps[k]? = some d) (hc : c.cfg = d.cfg) :
    (s.setComp k c).wiring = s.wiring := by
  unfold State.wiring State.setComp
  apply List.ext_getElem?
  intro i
  simp only [List.getElem?_map, List.getElem?_set]
  split
  · rename_i hk
    subst hk
    rw [h]
    have := (List.getElem?_eq_some_iff.1 h).1
    simp [this, hc]
  · rfl

theorem State.updateReg_eq {s : State} {r : RegRef} {c : Component} (f : (w : Nat) → BitVec w → BitVec w)
    (h : s.comps[r.comp]? = some c) : s.updateReg r f = s.setComp r.comp (c.updateReg f r.part) := by
  simp [State.updateReg, h]

theorem State.wiring_updateReg (s : State) (r : RegRef) (f : (w : Nat) → BitVec w → BitVec w) :
    (s.updateReg r f).wiring = s.wiring := by
  unfold State.updateReg
  split
  · exact State.wiring_setComp _ _ _ _ ‹_› (Component.updateReg_cfg ..)
  · rfl

/-- A register seen through the wiring: its configuration is the one `regCfg?` gives. -/
theorem Component.reg?_cfg {c : Component} {p : RegPart} {reg : Register} (h : c.reg? p = some reg) :
    c.cfg.regCfg? p = some reg.cfg := by
  cases p <;> cases c <;> simp_all [Component.reg?, CompCfg.regCfg?, Component.cfg] <;> subst h <;> rfl

theorem Component.reg?_none {c : Component} {p : RegPart} (h : c.reg? p = none) : c.cfg.regCfg? p = none := by
  cases p <;> cases c <;> simp_all [Component.reg?, CompCfg.regCfg?, Component.cfg]

theorem State.wiring_getElem? (s : State) (k : Nat) : s.wiring[k]? = (s.comps[k]?).map Component.cfg := by
  simp [State.wiring]

end Sys2Proof.Machine
end

