-- ==== Sys2Proof/Laws/Accessors.lean ====
section
/-! SUPPORT. What a `SET` of one bit and a change of one register do, and what they leave alone. -/

namespace Sys2Proof.Machine

open Sys2Proof

theorem bitIndex?_of_inRange {i : Int} {w : Nat} (h : inRange i w) : bitIndex? w i = some i.toNat := if_pos h

theorem bitIndex?_of_not_inRange {i : Int} {w : Nat} (h : ¬ inRange i w) : bitIndex? w i = none := if_neg h

/-- The value written by a `SET` obeys the rule of R101. -/
theorem setsBit_setValue (v : Option Int) (old : Bit) : setsBit v old (setValue v old) := by
  refine ⟨?_, ?_, ?_, ?_⟩
  · rintro x rfl h; simp [setValue, h]
  · rintro rfl; simp [setValue]
  · rintro rfl; simp [setValue]
  · rintro x rfl h
    simp [setValue, show ¬ 0 < x by omega, show x ≠ 0 by omega]

/-- A `SET` changes its bit by the rule of the value and keeps the others. -/
theorem setBitAt_setsBit {w : Nat} (x : BitVec w) (i : Int) (v : Option Int) (h : inRange i w) :
    setsBit v (x.getLsbD i.toNat) ((setBitAt x i.toNat v).getLsbD i.toNat) ∧
    ∀ j, j ≠ i.toNat → (setBitAt x i.toNat v).getLsbD j = x.getLsbD j := by
  have hi : i.toNat < w := by have := h.1; have := h.2; omega
  refine ⟨?_, fun j hj => ?_⟩
  · rw [getLsbD_setBitAt _ _ _ _ hi, if_pos rfl]; exact setsBit_setValue _ _
  · rw [getLsbD_setBitAt _ _ _ _ hi, if_neg hj]

theorem State.reg?_of_comp {s : State} {k : Nat} {p : RegPart} {c : Component} {reg : Register}
    (h : s.comps[k]? = some c) (hr : c.reg? p = some reg) : s.reg? ⟨k, p⟩ = some reg :=
  State.reg?_eq_some.2 ⟨c, h, hr⟩

theorem Component.reg?_width {c : Component} {p : RegPart} {reg : Register} (h : c.reg? p = some reg) :
    c.cfg.width = reg.cfg.width := by
  cases p <;> cases c <;> simp_all [Component.reg?, Component.cfg, CompCfg.width] <;> subst h <;> rfl

theorem Component.reg?_updateReg {c : Component} {p : RegPart} {reg : Register} (f : (w : Nat) → BitVec w → BitVec w)
    (h : c.reg? p = some reg) : (c.updateReg f p).reg? p = some { reg with value := f reg.cfg.width reg.value } := by
  cases p <;> cases c <;> first | (cases h; done) | (cases h; rfl)

theorem Component.reg?_updateReg_ne {c : Component} {p q : RegPart} (f : (w : Nat) → BitVec w → BitVec w) (h : q ≠ p) :
    (c.updateReg f p).reg? q = c.reg? q := by
  cases p <;> cases q <;> first | exact absurd rfl h | (cases c <;> rfl)

/-- The register that was changed holds the new value. -/
theorem State.reg?_updateReg {s : State} {r : RegRef} {reg : Register} (f : (w : Nat) → BitVec w → BitVec w)
    (h : s.reg? r = some reg) : (s.updateReg r f).reg? r = some { reg with value := f reg.cfg.width reg.value } := by
  obtain ⟨c, h1, h2⟩ := State.reg?_eq_some.1 h
  rw [State.updateReg_eq f h1]
  exact State.reg?_eq_some.2 ⟨_, State.setComp_comps_self _ _ _ _ h1, Component.reg?_updateReg f h2⟩

theorem State.updateReg_comps_ne {s : State} {r : RegRef} {k : Nat} (f : (w : Nat) → BitVec w → BitVec w)
    (hk : k ≠ r.comp) : (s.updateReg r f).comps[k]? = s.comps[k]? := by
  unfold State.updateReg; split
  · exact State.setComp_comps_ne _ _ _ _ hk
  · rfl

/-- Every other register is unchanged. -/
theorem State.reg?_updateReg_ne {s : State} {r r' : RegRef} (f : (w : Nat) → BitVec w → BitVec w) (h : r' ≠ r) :
    (s.updateReg r f).reg? r' = s.reg? r' := by
  by_cases hk : r'.comp = r.comp
  · cases hc : s.comps[r.comp]? with
    | none => simp [State.updateReg, hc]
    | some c =>
      rw [State.updateReg_eq f hc]
      simp only [State.reg?, hk, State.setComp_comps_self _ _ _ _ hc, hc, Option.bind_some]
      apply Component.reg?_updateReg_ne
      intro e; apply h; cases r; cases r'; simp_all
  · simp only [State.reg?, State.updateReg_comps_ne f hk]

/-- A change of a register touches no counter. -/
theorem State.counter?_updateReg {s : State} {r : RegRef} {k : Nat} (f : (w : Nat) → BitVec w → BitVec w) :
    (s.updateReg r f).counter? k = s.counter? k := by
  by_cases hk : k = r.comp
  · subst hk
    cases hc : s.comps[r.comp]? with
    | none => simp [State.updateReg, hc]
    | some c =>
      rw [State.updateReg_eq f hc]
      simp only [State.counter?, State.setComp_comps_self _ _ _ _ hc, hc]
      cases r.part <;> cases c <;> rfl
  · simp only [State.counter?, State.updateReg_comps_ne f hk]

/-- A change of a register touches no cell. -/
theorem State.cellAt_updateReg {s : State} {r : RegRef} {k a : Nat} (f : (w : Nat) → BitVec w → BitVec w) :
    (s.updateReg r f).cellAt k a = s.cellAt k a := by
  by_cases hk : k = r.comp
  · subst hk
    cases hc : s.comps[r.comp]? with
    | none => simp [State.updateReg, hc]
    | some c =>
      rw [State.updateReg_eq f hc]
      simp only [State.cellAt, State.memory?, State.setComp_comps_self _ _ _ _ hc, hc]
      cases r.part <;> cases c <;> rfl
  · simp only [State.cellAt, State.memory?, State.updateReg_comps_ne f hk]

/-- Only the components can differ. -/
theorem State.updateReg_rest (s : State) (r : RegRef) (f : (w : Nat) → BitVec w → BitVec w) :
    s.updateReg r f = { s with comps := (s.updateReg r f).comps } := by
  unfold State.updateReg; split <;> rfl

end Sys2Proof.Machine
end

