-- ==== Sys2Proof/Laws/Build.lean ====
section
/-! SUPPORT. What one action of the composition root does, and that a configuration it accepts is legal. -/

namespace Sys2Proof.Machine

open Sys2Proof

theorem except_bind_eq_ok {ε α β : Type} {x : Except ε α} {f : α → Except ε β} {r : β} (h : (x >>= f) = .ok r) :
    ∃ a, x = .ok a ∧ f a = .ok r := by
  cases x with
  | error e => cases h
  | ok a => exact ⟨a, rfl, h⟩

theorem checkWidth_eq_ok {w : Int} {n : Nat} (h : checkWidth w = .ok n) : 1 ≤ n ∧ n ≤ 32 := by
  unfold checkWidth at h; split at h <;> cases h; omega

theorem checkSize_eq_ok {w : Int} {n : Nat} (h : checkSize w = .ok n) : 1 ≤ n := by
  unfold checkSize at h; split at h <;> cases h; omega

theorem checkSub_eq_ok {i : Option Int} {n : Nat} (h : checkSub i = .ok n) : n < 32 := by
  unfold checkSub at h; split at h
  · cases h
  · split at h <;> cases h; omega

/-- A configuration that a constructor makes is legal (R5, D9, D22, D33). -/
theorem BuildAction.cfg?_legal {a : BuildAction} {c : CompCfg} (h : a.cfg? = .ok (some c)) : c.legal = true := by
  cases a with
  | register refs w l d =>
    obtain ⟨_, -, h⟩ := except_bind_eq_ok h
    obtain ⟨n, hn, h⟩ := except_bind_eq_ok h
    obtain ⟨_, -, h⟩ := except_bind_eq_ok h
    obtain ⟨_, -, h⟩ := except_bind_eq_ok h
    cases h
    simpa [CompCfg.legal] using checkWidth_eq_ok hn
  | counter refs w l i d =>
    obtain ⟨_, -, h⟩ := except_bind_eq_ok h
    obtain ⟨n, hn, h⟩ := except_bind_eq_ok h
    obtain ⟨_, -, h⟩ := except_bind_eq_ok h
    obtain ⟨_, -, h⟩ := except_bind_eq_ok h
    obtain ⟨_, -, h⟩ := except_bind_eq_ok h
    cases h
    simpa [CompCfg.legal] using checkWidth_eq_ok hn
  | memory refs w sz l i d =>
    obtain ⟨_, -, h⟩ := except_bind_eq_ok h
    obtain ⟨n, hn, h⟩ := except_bind_eq_ok h
    obtain ⟨k, hk, h⟩ := except_bind_eq_ok h
    obtain ⟨_, -, h⟩ := except_bind_eq_ok h
    obtain ⟨_, -, h⟩ := except_bind_eq_ok h
    obtain ⟨_, -, h⟩ := except_bind_eq_ok h
    cases h
    simpa [CompCfg.legal] using ⟨checkWidth_eq_ok hn, checkSize_eq_ok hk⟩
  | alu refs w l i d sub =>
    obtain ⟨_, -, h⟩ := except_bind_eq_ok h
    obtain ⟨n, hn, h⟩ := except_bind_eq_ok h
    obtain ⟨_, -, h⟩ := except_bind_eq_ok h
    obtain ⟨_, -, h⟩ := except_bind_eq_ok h
    obtain ⟨_, -, h⟩ := except_bind_eq_ok h
    obtain ⟨k, hk, h⟩ := except_bind_eq_ok h
    cases h
    simpa [CompCfg.legal] using ⟨checkWidth_eq_ok hn, checkSub_eq_ok hk⟩
  | addRising _ => cases h
  | addFalling _ => cases h

/-- A constructor call never makes nothing. -/
theorem BuildAction.cfg?_eq_ok_none {a : BuildAction} (h : a.cfg? = .ok none) :
    (∃ cb, a = .addRising cb) ∨ ∃ cb, a = .addFalling cb := by
  cases a with
  | addRising cb => exact .inl ⟨cb, rfl⟩
  | addFalling cb => exact .inr ⟨cb, rfl⟩
  | register refs w l d =>
    repeat obtain ⟨_, -, h⟩ := except_bind_eq_ok h
    cases h
  | counter refs w l i d =>
    repeat obtain ⟨_, -, h⟩ := except_bind_eq_ok h
    cases h
  | memory refs w n l i d =>
    repeat obtain ⟨_, -, h⟩ := except_bind_eq_ok h
    cases h
  | alu refs w l i d sub =>
    repeat obtain ⟨_, -, h⟩ := except_bind_eq_ok h
    cases h

/-- Everything an action of the composition root can do: add a legal component, or append one observer to a list. -/
theorem State.build_eq_ok {s t : State} {a : BuildAction} (h : s.build a = .ok t) :
    (∃ c, a.cfg? = .ok (some c) ∧ c.legal = true ∧ a.rising? = none ∧ a.falling? = none ∧ t = s.addComponent c) ∨
    (∃ cb, a = .addRising cb ∧ t = { s with clk := { s.clk with rising := s.clk.rising ++ [.observer cb] } }) ∨
    ∃ cb, a = .addFalling cb ∧ t = { s with clk := { s.clk with falling := s.clk.falling ++ [cb] } } := by
  unfold State.build at h
  split at h
  · cases h
  · rename_i c hc
    cases h
    refine .inl ⟨c, hc, BuildAction.cfg?_legal hc, ?_, ?_, rfl⟩ <;> cases a <;> first | rfl | cases hc
  · rename_i hc
    obtain ⟨cb, rfl⟩ | ⟨cb, rfl⟩ := BuildAction.cfg?_eq_ok_none hc <;> cases h
    · exact .inr (.inl ⟨cb, rfl, rfl⟩)
    · exact .inr (.inr ⟨cb, rfl, rfl⟩)

theorem State.addComponent_wiring (s : State) (c : CompCfg) : (s.addComponent c).wiring = s.wiring ++ [c] := by
  simp only [State.wiring, State.addComponent, List.map_append, List.map_cons, List.map_nil]
  cases c <;> rfl

/-- What holds before construction and is kept by every action holds of the circuit that is built. -/
theorem construct_induction {P : List BuildAction → State → Prop} {n : Nat} {plan : List BuildAction} {s : State}
    (h0 : P [] (State.empty n))
    (hstep : ∀ done u v a, P done u → State.build u a = .ok v → P (done ++ [a]) v)
    (h : construct n plan = .ok s) : P plan s := by
  suffices key : ∀ (todo done : List BuildAction) (u : State), P done u → todo.foldlM State.build u = .ok s →
      P (done ++ todo) s from key plan [] _ h0 h
  intro todo
  induction todo with
  | nil => intro done u hu hb; cases hb; rwa [List.append_nil]
  | cons a rest ih =>
    intro done u hu hb
    obtain ⟨v, hv, hb⟩ := except_bind_eq_ok (by simpa only [List.foldlM_cons] using hb)
    simpa using ih (done ++ [a]) v (hstep _ _ _ _ hu hv) hb

end Sys2Proof.Machine
end

