-- ==== Sys2Proof/Laws/Cells.lean ====
section
/-! SUPPORT. The cells of a Memory: a read after a write, and the canonical form, which every operation keeps. -/

namespace Sys2Proof.Machine

open Sys2Proof

/-- An address below every listed one reads as zero. -/
theorem cellsRead_of_lt {w : Nat} {l : List (Nat × BitVec w)} {a : Nat} (h : ∀ e ∈ l, a < e.1) : cellsRead l a = 0#w := by
  induction l with
  | nil => rfl
  | cons e rest ih =>
    obtain ⟨b, u⟩ := e
    have hb := h (b, u) (by simp)
    simp only [cellsRead]
    rw [if_neg (by simp at hb; omega), ih (fun e he => h e (by simp [he]))]

/-- A read after a write to the same address gives the value written. -/
theorem cellsRead_cellsWrite_self {w : Nat} {l : List (Nat × BitVec w)} (hl : cellsCanonical l) (a : Nat) (v : BitVec w) :
    cellsRead (cellsWrite l a v) a = v := by
  obtain ⟨hp, -⟩ := hl
  induction l with
  | nil => simp only [cellsWrite]; split <;> simp_all [cellsRead]
  | cons e rest ih =>
    obtain ⟨b, u⟩ := e
    obtain ⟨h1, h2⟩ := List.pairwise_cons.1 hp
    simp only [cellsWrite]
    split
    · rename_i hab
      split
      · rename_i hv
        subst hv
        refine cellsRead_of_lt fun e he => ?_
        rcases List.mem_cons.1 he with rfl | he
        · exact hab
        · exact Nat.lt_trans hab (h1 e he)
      · simp [cellsRead]
    · split
      · rename_i hab
        split
        · rename_i hv
          subst hv hab
          exact cellsRead_of_lt h1
        · simp [cellsRead]
      · rename_i hab
        simp only [cellsRead, if_neg hab]
        exact ih h2

/-- A write leaves every other address alone. -/
theorem cellsRead_cellsWrite_ne {w : Nat} (l : List (Nat × BitVec w)) (a a' : Nat) (v : BitVec w) (h : a' ≠ a) :
    cellsRead (cellsWrite l a v) a' = cellsRead l a' := by
  induction l with
  | nil => simp only [cellsWrite]; split <;> simp [cellsRead, h]
  | cons e rest ih =>
    obtain ⟨b, u⟩ := e
    simp only [cellsWrite]
    split
    · split
      · rfl
      · simp [cellsRead, h]
    · split
      · rename_i hab
        subst hab
        split <;> simp [cellsRead, h]
      · simp only [cellsRead, ih]

/-- Every entry after a write is an old one or the one written. -/
theorem mem_cellsWrite {w : Nat} {l : List (Nat × BitVec w)} {a : Nat} {v : BitVec w} {e : Nat × BitVec w}
    (h : e ∈ cellsWrite l a v) : e ∈ l ∨ (e = (a, v) ∧ v ≠ 0#w) := by
  induction l with
  | nil =>
    simp only [cellsWrite] at h
    split at h
    · exact absurd h List.not_mem_nil
    · exact .inr ⟨by simpa using h, ‹_›⟩
  | cons c rest ih =>
    obtain ⟨b, u⟩ := c
    simp only [cellsWrite] at h
    split at h
    · split at h
      · exact .inl h
      · rcases List.mem_cons.1 h with rfl | h
        · exact .inr ⟨rfl, ‹_›⟩
        · exact .inl h
    · split at h
      · split at h
        · exact .inl (List.mem_cons_of_mem _ h)
        · rcases List.mem_cons.1 h with rfl | h
          · exact .inr ⟨rfl, ‹_›⟩
          · exact .inl (List.mem_cons_of_mem _ h)
      · rcases List.mem_cons.1 h with rfl | h
        · exact .inl List.mem_cons_self
        · rcases ih h with h | h
          · exact .inl (List.mem_cons_of_mem _ h)
          · exact .inr h

/-- A write keeps the canonical form. -/
theorem cellsWrite_canonical {w : Nat} {l : List (Nat × BitVec w)} (hl : cellsCanonical l) (a : Nat) (v : BitVec w) :
    cellsCanonical (cellsWrite l a v) := by
  refine ⟨?_, fun e he => ?_⟩
  · obtain ⟨hp, -⟩ := hl
    induction l with
    | nil => simp only [cellsWrite]; split <;> simp
    | cons c rest ih =>
      obtain ⟨b, u⟩ := c
      obtain ⟨h1, h2⟩ := List.pairwise_cons.1 hp
      simp only [cellsWrite]
      split
      · rename_i hab
        split
        · exact hp
        · refine List.pairwise_cons.2 ⟨fun e he => ?_, hp⟩
          rcases List.mem_cons.1 he with rfl | he
          · exact hab
          · exact Nat.lt_trans hab (h1 e he)
      · split
        · rename_i hab
          subst hab
          split
          · exact h2
          · exact List.pairwise_cons.2 ⟨h1, h2⟩
        · refine List.pairwise_cons.2 ⟨fun e he => ?_, ih h2⟩
          rcases mem_cellsWrite he with he | ⟨rfl, -⟩
          · exact h1 e he
          · show b < a
            omega
  · rcases mem_cellsWrite he with he | ⟨rfl, hv⟩
    · exact hl.2 e he
    · exact hv

/-- A Memory keeps its canonical form when an addressed cell is written. -/
theorem Memory.wf_writeCell {m : Memory} (h : m.wf) {a : Nat} (ha : a < m.cfg.size) (v : BitVec m.cfg.width) :
    (m.writeCell a v).wf := by
  refine ⟨cellsWrite_canonical h.1 a v, fun e he => ?_⟩
  rcases mem_cellsWrite he with he | ⟨rfl, -⟩
  · exact h.2 e he
  · exact ha

theorem Memory.readCell_writeCell_self {m : Memory} (h : m.wf) (a : Nat) (v : BitVec m.cfg.width) :
    (m.writeCell a v).readCell a = v :=
  cellsRead_cellsWrite_self h.1 a v

theorem Memory.readCell_writeCell_ne (m : Memory) (a a' : Nat) (v : BitVec m.cfg.width) (h : a' ≠ a) :
    (m.writeCell a v).readCell a' = m.readCell a' :=
  cellsRead_cellsWrite_ne m.cells a a' v h

/-- The memory of the reset state has the canonical form. -/
theorem reset_memory_wf : ∀ m, Component.memory m ∈ State.reset.comps → m.wf := by
  intro m hm
  simp [State.reset, State.initial, Config.ref, State.addComponent, State.empty, Component.fresh] at hm
  subst hm
  exact ⟨⟨List.Pairwise.nil, by simp⟩, by simp⟩

end Sys2Proof.Machine
end

