-- ==== Sys2Proof/Laws/Ripple.lean ====
section
/-! SUPPORT. The full-adder chain adds: the Counter's increment is `+ 1` and the ALU's recompute is `+` or `-`, each modulo
`2 ^ w` (R143, R165, R166). -/

namespace Sys2Proof.Machine

open Sys2Proof

theorem fulladd_sum (cin a b : Bit) : (fulladd cin a b).1 = (a ^^ (b ^^ cin)) := by
  cases cin <;> cases a <;> cases b <;> rfl

theorem fulladd_carry (cin a b : Bit) : (fulladd cin a b).2 = Bool.atLeastTwo a b cin := by
  cases cin <;> cases a <;> cases b <;> rfl

theorem xorGate_eq (a b : Bit) : xorGate a b = (a ^^ b) := by
  cases a <;> cases b <;> rfl

/-- The chain reads its operands below its length only. -/
theorem rippleLoop_congr {w n : Nat} {cin : Bit} {a b a' b' : Nat → Bit} (ha : ∀ i < n, a i = a' i)
    (hb : ∀ i < n, b i = b' i) : rippleLoop w cin a b n = rippleLoop w cin a' b' n := by
  induction n with
  | zero => rfl
  | succ n ih =>
    simp only [rippleLoop, ih (fun i h => ha i (by omega)) (fun i h => hb i (by omega)), ha n (by omega), hb n (by omega)]

/-- After `n` stages the carry is the carry into bit `n`, and the sum bits below `n` are in place. -/
theorem rippleLoop_spec {w : Nat} (cin : Bit) (x y : BitVec w) (n : Nat) (hn : n ≤ w) :
    (rippleLoop w cin x.getLsbD y.getLsbD n).2 = BitVec.carry n x y cin ∧
    ∀ j < n, (rippleLoop w cin x.getLsbD y.getLsbD n).1.getLsbD j =
      (x.getLsbD j ^^ (y.getLsbD j ^^ BitVec.carry j x y cin)) := by
  induction n with
  | zero => exact ⟨by simp [rippleLoop], fun j h => absurd h (by omega)⟩
  | succ n ih =>
    obtain ⟨hc, hb⟩ := ih (by omega)
    refine ⟨?_, fun j hj => ?_⟩
    · simp only [rippleLoop, fulladd_carry, hc, BitVec.carry_succ]
    · simp only [rippleLoop, getLsbD_writeBit _ _ _ _ (show n < w by omega), fulladd_sum, hc]
      split
      · rename_i h; rw [h]
      · exact hb j (by omega)

/-- The chain is addition with a carry-in. -/
theorem ripple_eq_add {w : Nat} (cin : Bit) (x y : BitVec w) :
    ripple w cin x.getLsbD y.getLsbD = x + y + BitVec.setWidth w (BitVec.ofBool cin) := by
  apply BitVec.eq_of_getLsbD_eq
  intro i hi
  rw [BitVec.getLsbD_add_add_bool hi, ripple, (rippleLoop_spec cin x y w (Nat.le_refl w)).2 i hi]

/-- The increment of R143 is addition of 1 modulo `2 ^ w`. -/
theorem increment_eq {w : Nat} (v : BitVec w) : increment v = v + 1#w := by
  have h : (fun _ : Nat => false) = (0#w).getLsbD := by funext i; simp
  unfold increment
  rw [h, ripple_eq_add]
  apply BitVec.eq_of_toNat_eq
  simp [BitVec.toNat_setWidth, BitVec.toNat_ofNat]

/-- The recompute of R164 in closed form: `A + B`, or `A - B` by complement and carry-in. -/
theorem recomputed_eq {w : Nat} (sub : Bit) (a b : BitVec w) : recomputed sub a b = if sub then a - b else a + b := by
  unfold recomputed ripple
  cases sub
  · rw [rippleLoop_congr (a' := a.getLsbD) (b' := b.getLsbD) (fun _ _ => rfl) (fun i _ => by simp [xorGate_eq])]
    have := ripple_eq_add false a b
    unfold ripple at this
    rw [this]
    simp
  · rw [rippleLoop_congr (a' := a.getLsbD) (b' := (~~~b).getLsbD) (fun _ _ => rfl)
      (fun i h => by simp [xorGate_eq, h])]
    have := ripple_eq_add true a (~~~b)
    unfold ripple at this
    rw [this]
    simp only [if_true, BitVec.sub_eq_add_neg, BitVec.neg_eq_not_add, BitVec.add_assoc]
    congr 2
    apply BitVec.eq_of_toNat_eq
    simp [BitVec.toNat_setWidth]

end Sys2Proof.Machine
end

