-- ==== Sys2Proof/Laws/Ops.lean ====
section
/-! SUPPORT. For each shared operation, what it can do: its result when its component is there, and its frame. -/

namespace Sys2Proof.Machine

open Sys2Proof

/-! ### The frame of everything that happens inside an edge -/

/-- What no micro-operation touches: the Clock, the control bus, the agenda, the outputs and the configuration. -/
structure Frame (s t : State) : Prop where
  clk : t.clk = s.clk
  cbus : t.cbus = s.cbus
  agenda : t.agenda = s.agenda
  reply : t.reply = s.reply
  notified : t.notified = s.notified
  wiring : t.wiring = s.wiring

theorem Frame.refl (s : State) : Frame s s := ⟨rfl, rfl, rfl, rfl, rfl, rfl⟩

theorem Frame.trans {s t u : State} (h : Frame s t) (g : Frame t u) : Frame s u :=
  ⟨g.clk.trans h.clk, g.cbus.trans h.cbus, g.agenda.trans h.agenda, g.reply.trans h.reply,
    g.notified.trans h.notified, g.wiring.trans h.wiring⟩

theorem Frame.setDbus (s : State) (v : Word) : Frame s (s.setDbus v) := ⟨rfl, rfl, rfl, rfl, rfl, rfl⟩

theorem Frame.raise (s : State) (f : Fault) : Frame s (s.raise f) :=
  ⟨by simp, by simp, by simp, by simp, by simp, by simp [State.wiring]⟩

theorem Frame.setComp {s : State} {k : Nat} {c d : Component} (h : s.comps[k]? = some d) (hc : c.cfg = d.cfg) :
    Frame s (s.setComp k c) := ⟨rfl, rfl, rfl, rfl, rfl, State.wiring_setComp s k c d h hc⟩

theorem Frame.updateReg (s : State) (r : RegRef) (f : (w : Nat) → BitVec w → BitVec w) : Frame s (s.updateReg r f) := by
  unfold State.updateReg
  split
  · exact Frame.setComp ‹_› (Component.updateReg_cfg ..)
  · exact .refl s

/-! ### Results -/

theorem State.driveReg_eq {s : State} {r : RegRef} {reg : Register} (h : s.reg? r = some reg) :
    s.driveReg r = s.setDbus (toBus reg.value) := by simp [State.driveReg, h]

theorem State.loadReg_eq {s : State} {r : RegRef} {c : Component} (h : s.comps[r.comp]? = some c) :
    s.loadReg r = s.setComp r.comp (c.updateReg (fun w _ => fromBus w s.dbus) r.part) := State.updateReg_eq _ h

theorem State.loadCounter_eq {s : State} {k : Nat} {c : Counter} (h : s.counter? k = some c) :
    s.loadCounter k = s.setComp k (.counter { c with value := fromBus c.cfg.width s.dbus }) := by
  simp [State.loadCounter, h]

theorem State.incCounter_eq {s : State} {k : Nat} {c : Counter} (h : s.counter? k = some c) :
    s.incCounter k = s.setComp k (.counter { c with value := c.value + 1#c.cfg.width }) := by
  simp [State.incCounter, h, increment_eq]

theorem State.driveCounter_eq {s : State} {k : Nat} {c : Counter} (h : s.counter? k = some c) :
    s.driveCounter k = s.setDbus (toBus c.value) := by simp [State.driveCounter, h]

theorem State.recompute_eq {s : State} {k : Nat} {u : Alu} (h : s.alu? k = some u) (sub : Bit) :
    s.recompute k sub = s.setComp k (.alu { u with out := if sub then u.a - u.b else u.a + u.b }) := by
  simp [State.recompute, h, recomputed_eq]

theorem State.withCell_addressed {s : State} {k : Nat} {m : Memory} (h : s.memory? k = some m)
    (ha : m.mar.toNat < m.cfg.size) (act : State → State) : s.withCell k act = act s := by
  simp [State.withCell, h, Memory.addressed, ha]

theorem State.withCell_fault {s : State} {k : Nat} {m : Memory} (h : s.memory? k = some m)
    (ha : m.cfg.size ≤ m.mar.toNat) (act : State → State) :
    s.withCell k act = s.raise (.invalidMemoryAddress m.mar.toNat) := by
  have : ¬ m.mar.toNat < m.cfg.size := by omega
  simp [State.withCell, h, Memory.addressed, Memory.addressFault, this]

theorem State.storeCell_eq {s : State} {k : Nat} {m : Memory} (h : s.memory? k = some m) :
    s.storeCell k = s.setComp k (.memory (m.writeCell m.mar.toNat (fromBus m.cfg.width s.dbus))) := by
  simp [State.storeCell, h]

theorem State.fetchCell_eq {s : State} {k : Nat} {m : Memory} (h : s.memory? k = some m) :
    s.fetchCell k = s.setDbus (toBus (m.readCell m.mar.toNat)) := by simp [State.fetchCell, h]

/-! ### Frames -/

theorem Frame.driveReg (s : State) (r : RegRef) : Frame s (s.driveReg r) := by
  unfold State.driveReg; split
  · exact .setDbus s _
  · exact .refl s

theorem Frame.loadReg (s : State) (r : RegRef) : Frame s (s.loadReg r) := .updateReg s r _

theorem Frame.loadCounter (s : State) (k : Nat) : Frame s (s.loadCounter k) := by
  unfold State.loadCounter; split
  · rename_i hk
    exact .setComp (State.counter?_eq_some.1 hk) rfl
  · exact .refl s

theorem Frame.incCounter (s : State) (k : Nat) : Frame s (s.incCounter k) := by
  unfold State.incCounter; split
  · rename_i hk
    exact .setComp (State.counter?_eq_some.1 hk) rfl
  · exact .refl s

theorem Frame.driveCounter (s : State) (k : Nat) : Frame s (s.driveCounter k) := by
  unfold State.driveCounter; split
  · exact .setDbus s _
  · exact .refl s

theorem Frame.storeCell (s : State) (k : Nat) : Frame s (s.storeCell k) := by
  unfold State.storeCell; split
  · rename_i hk
    exact .setComp (State.memory?_eq_some.1 hk) rfl
  · exact .refl s

theorem Frame.fetchCell (s : State) (k : Nat) : Frame s (s.fetchCell k) := by
  unfold State.fetchCell; split
  · exact .setDbus s _
  · exact .refl s

theorem Frame.withCell (s : State) (k : Nat) {act : State → State} (h : Frame s (act s)) : Frame s (s.withCell k act) := by
  unfold State.withCell; split
  · split
    · exact h
    · exact .raise s _
  · exact .refl s

theorem Frame.recompute (s : State) (k : Nat) (sub : Bit) : Frame s (s.recompute k sub) := by
  unfold State.recompute; split
  · rename_i hk
    exact .setComp (State.alu?_eq_some.1 hk) rfl
  · exact .refl s

/-- The frame of a micro-operation. -/
theorem Frame.perform (s : State) (m : Micro) : Frame s (s.perform m) := by
  cases m with
  | regDrive r => exact .driveReg s r
  | regLoad r => exact .loadReg s r
  | cntLoad k => exact .loadCounter s k
  | cntInc k => exact .incCounter s k
  | cntDrive k => exact .driveCounter s k
  | memWrite k => exact Frame.withCell s k (act := fun t => t.storeCell k) (.storeCell s k)
  | memRead k => exact Frame.withCell s k (act := fun t => t.fetchCell k) (.fetchCell s k)
  | aluAdd k => exact .recompute s k false
  | aluSub k => exact .recompute s k true

/-- Micro-operations other than a Memory's access record no fault. -/
theorem State.perform_fault {s : State} {m : Micro} (hw : ∀ k, m ≠ .memWrite k) (hr : ∀ k, m ≠ .memRead k) :
    (s.perform m).fault = s.fault := by
  cases m with
  | memWrite k => exact absurd rfl (hw k)
  | memRead k => exact absurd rfl (hr k)
  | regDrive r => simp only [State.perform, State.driveReg]; split <;> rfl
  | regLoad r => simp only [State.perform, State.loadReg, State.updateReg]; split <;> rfl
  | cntLoad k => simp only [State.perform, State.loadCounter]; split <;> rfl
  | cntInc k => simp only [State.perform, State.incCounter]; split <;> rfl
  | cntDrive k => simp only [State.perform, State.driveCounter]; split <;> rfl
  | aluAdd k => simp only [State.perform, State.recompute]; split <;> rfl
  | aluSub k => simp only [State.perform, State.recompute]; split <;> rfl

/-! ### Legal, canonical components -/

/-- Every component of the state is legal and canonical. -/
def State.compsOk (s : State) : Prop := ∀ c ∈ s.comps, c.ok

theorem State.compsOk_setComp {s : State} (h : s.compsOk) (k : Nat) {c : Component} (hc : c.ok) :
    (s.setComp k c).compsOk := fun d hd => by
  rcases List.mem_or_eq_of_mem_set hd with hd | rfl
  · exact h d hd
  · exact hc

theorem State.compsOk_get {s : State} (h : s.compsOk) {k : Nat} {c : Component} (hk : s.comps[k]? = some c) : c.ok :=
  h c (List.mem_of_getElem? hk)

/-- A component other than a Memory is legal and canonical when its configuration is legal. -/
theorem Component.ok_of_cfg {c d : Component} (h : d.ok) (hc : c.cfg = d.cfg) (hm : ∀ m, c ≠ .memory m) : c.ok :=
  ⟨hc ▸ h.1, fun m e => absurd e (hm m)⟩

theorem Component.ok_updateReg {c : Component} (h : c.ok) (f : (w : Nat) → BitVec w → BitVec w) (p : RegPart) :
    (c.updateReg f p).ok := by
  refine ⟨by rw [Component.updateReg_cfg]; exact h.1, fun m hm => ?_⟩
  cases c with
  | memory n =>
    have hn := h.2 n rfl
    cases p <;> (injection hm with hm; subst hm; exact hn)
  | register _ => cases p <;> cases hm
  | counter _ => cases p <;> cases hm
  | alu _ => cases p <;> cases hm

theorem State.compsOk_updateReg {s : State} (h : s.compsOk) (r : RegRef) (f : (w : Nat) → BitVec w → BitVec w) :
    (s.updateReg r f).compsOk := by
  unfold State.updateReg
  split
  · exact State.compsOk_setComp h _ (Component.ok_updateReg (State.compsOk_get h ‹_›) f _)
  · exact h

/-- A write of an addressed cell keeps the component legal and canonical. -/
theorem Component.ok_writeCell {m : Memory} (h : (Component.memory m).ok) {a : Nat} (ha : a < m.cfg.size)
    (v : BitVec m.cfg.width) : (Component.memory (m.writeCell a v)).ok :=
  ⟨h.1, fun n hn => by injection hn with hn; subst hn; exact Memory.wf_writeCell (h.2 m rfl) ha v⟩

theorem State.compsOk_perform {s : State} (h : s.compsOk) (m : Micro) : (s.perform m).compsOk := by
  cases m with
  | regDrive r => simp only [State.perform, State.driveReg]; split <;> exact h
  | regLoad r => exact State.compsOk_updateReg h r _
  | cntLoad k =>
    simp only [State.perform, State.loadCounter]; split
    · rename_i hk
      exact State.compsOk_setComp h k
        (Component.ok_of_cfg (State.compsOk_get h (State.counter?_eq_some.1 hk)) rfl (fun _ e => by cases e))
    · exact h
  | cntInc k =>
    simp only [State.perform, State.incCounter]; split
    · rename_i hk
      exact State.compsOk_setComp h k
        (Component.ok_of_cfg (State.compsOk_get h (State.counter?_eq_some.1 hk)) rfl (fun _ e => by cases e))
    · exact h
  | cntDrive k => simp only [State.perform, State.driveCounter]; split <;> exact h
  | memWrite k =>
    simp only [State.perform, State.writeMemory, State.withCell]; split
    · rename_i m hm
      split
      · rename_i ha
        rw [State.storeCell_eq hm]
        exact State.compsOk_setComp h k (Component.ok_writeCell (State.compsOk_get h (State.memory?_eq_some.1 hm))
          (by simpa [Memory.addressed] using ha) _)
      · simpa [State.compsOk] using h
    · exact h
  | memRead k =>
    simp only [State.perform, State.readMemory, State.withCell]; split
    · split
      · simp only [State.fetchCell]; split <;> exact h
      · simpa [State.compsOk] using h
    · exact h
  | aluAdd k =>
    simp only [State.perform, State.recompute]; split
    · rename_i hk
      exact State.compsOk_setComp h k
        (Component.ok_of_cfg (State.compsOk_get h (State.alu?_eq_some.1 hk)) rfl (fun _ e => by cases e))
    · exact h
  | aluSub k =>
    simp only [State.perform, State.recompute]; split
    · rename_i hk
      exact State.compsOk_setComp h k
        (Component.ok_of_cfg (State.compsOk_get h (State.alu?_eq_some.1 hk)) rfl (fun _ e => by cases e))
    · exact h

end Sys2Proof.Machine
end

