-- ==== Sys2Proof/Laws/Edge.lean ====
section
/-! SUPPORT. What one rising subscriber and one whole dispatch can do: their frames, their effect on the fault record, and the
micro-operations a subscriber performs. -/

namespace Sys2Proof.Machine

open Sys2Proof

/-! ### Sequences of micro-operations -/

@[simp] theorem performAll_nil (s : State) : performAll [] s = s := rfl

theorem performAll_cons {m : Micro} {ms : List Micro} {s : State} (h : (s.perform m).fault = none) :
    performAll (m :: ms) s = performAll ms (s.perform m) := by
  simp [performAll, h]

theorem performAll_cons_fault {m : Micro} {ms : List Micro} {s : State} {f : Fault} (h : (s.perform m).fault = some f) :
    performAll (m :: ms) s = s.perform m := by
  simp [performAll, h]

theorem performAll_single (m : Micro) (s : State) : performAll [m] s = s.perform m := by
  simp only [performAll]; split <;> rfl

/-- A sequence that does not fault is followed by the rest; one that faults ends there. -/
theorem performAll_append (a b : List Micro) (s : State) (hs : s.fault = none) :
    performAll (a ++ b) s = match (performAll a s).fault with
      | none => performAll b (performAll a s)
      | some _ => performAll a s := by
  induction a generalizing s with
  | nil => simp [hs]
  | cons m ms ih =>
    cases h : (s.perform m).fault with
    | none => rw [List.cons_append, performAll_cons h, performAll_cons h, ih _ h]
    | some f => rw [List.cons_append, performAll_cons_fault h, performAll_cons_fault h, h]

theorem Frame.performAll (ms : List Micro) (s : State) : Frame s (performAll ms s) := by
  induction ms generalizing s with
  | nil => exact .refl s
  | cons m ms ih =>
    cases h : (s.perform m).fault with
    | none => rw [performAll_cons h]; exact (Frame.perform s m).trans (ih _)
    | some f => rw [performAll_cons_fault h]; exact .perform s m

theorem compsOk_performAll {s : State} (h : s.compsOk) (ms : List Micro) : (performAll ms s).compsOk := by
  induction ms generalizing s with
  | nil => exact h
  | cons m ms ih =>
    cases hf : (s.perform m).fault with
    | none => rw [performAll_cons hf]; exact ih (State.compsOk_perform h m)
    | some f => rw [performAll_cons_fault hf]; exact State.compsOk_perform h m

/-- A gated micro-operation that records no fault happens exactly when its line is asserted. -/
theorem performAll_gated {w : Word} {l : Line} {m : Micro} {s : State} (ms : List Micro) (hs : s.fault = none)
    (hm : (s.perform m).fault = none) :
    performAll (gated w l m ++ ms) s = performAll ms (if lineAsserted w l then s.perform m else s) := by
  rw [performAll_append _ _ _ hs]
  unfold gated
  cases lineAsserted w l
  · simp [hs]
  · simp [performAll_single, hm]

/-! ### One subscriber -/

/-- A core handler performs, in order, the micro-operations that the control word selects for it (R73, R131, R141, R152,
R164). -/
theorem State.invoke_eq_performAll {s : State} (hs : s.fault = none) {h : Subscriber} (ho : ∀ cb, h ≠ .observer cb) :
    s.invoke h = performAll (h.select s.wiring s.cbus) s := by
  cases h with
  | observer cb => exact absurd rfl (ho cb)
  | reg r =>
    simp only [State.invoke, State.registerHandler, Subscriber.select, State.wiring_getElem?, State.reg?]
    cases hc : s.comps[r.comp]? with
    | none => rfl
    | some c =>
      simp only [Option.map_some, Option.bind_some]
      cases hr : c.reg? r.part with
      | none => rw [Component.reg?_none hr]; rfl
      | some reg =>
        rw [Component.reg?_cfg hr]
        have h1 : (s.perform (.regDrive r)).fault = none :=
          (State.perform_fault (fun _ e => by cases e) (fun _ e => by cases e)).trans hs
        simp only
        rw [performAll_gated _ hs h1, ← List.append_nil (gated s.cbus reg.cfg.loadIndex (.regLoad r))]
        have hs1 : (if lineAsserted s.cbus reg.cfg.driveIndex then s.perform (.regDrive r) else s).fault = none := by
          split
          · exact h1
          · exact hs
        have h2 : ((if lineAsserted s.cbus reg.cfg.driveIndex then s.perform (.regDrive r) else s).perform
            (.regLoad r)).fault = none :=
          (State.perform_fault (fun _ e => by cases e) (fun _ e => by cases e)).trans hs1
        rw [performAll_gated _ hs1 h2]
        have hcb : (if lineAsserted s.cbus reg.cfg.driveIndex then s.driveReg r else s).cbus = s.cbus := by
          split
          · exact (Frame.driveReg s r).cbus
          · rfl
        simp only [performAll_nil, State.perform, State.asserted, hcb]
  | counter k =>
    simp only [State.invoke, State.counterHandler, Subscriber.select, State.wiring_getElem?, State.counter?]
    cases hc : s.comps[k]? with
    | none => rfl
    | some c =>
      cases c with
      | register _ => rfl
      | memory _ => rfl
      | alu _ => rfl
      | counter c =>
        simp only [Option.map_some, Component.cfg]
        have nf : ∀ (t : State) (m : Micro), t.fault = none → (∀ k, m ≠ .memWrite k) → (∀ k, m ≠ .memRead k) →
            (t.perform m).fault = none := fun t m ht h1 h2 => (State.perform_fault h1 h2).trans ht
        have ite : ∀ (b : Bool) (t : State) (m : Micro), t.fault = none → (t.perform m).fault = none →
            (if b then t.perform m else t).fault = none := fun b t m h1 h2 => by cases b <;> simp [h1, h2]
        have h1 := nf s (.cntLoad k) hs (fun _ e => by cases e) (fun _ e => by cases e)
        have g1 := ite (lineAsserted s.cbus c.cfg.loadIndex) s _ hs h1
        have h2 := nf _ (.cntInc k) g1 (fun _ e => by cases e) (fun _ e => by cases e)
        have g2 := ite (lineAsserted s.cbus c.cfg.incrementIndex) _ _ g1 h2
        have h3 := nf _ (.cntDrive k) g2 (fun _ e => by cases e) (fun _ e => by cases e)
        rw [List.append_assoc, performAll_gated _ hs h1, performAll_gated _ g1 h2,
          ← List.append_nil (gated s.cbus c.cfg.driveIndex (.cntDrive k)), performAll_gated _ g2 h3]
        have f1 : ∀ b : Bool, (if b then s.loadCounter k else s).cbus = s.cbus := fun b => by
          cases b <;> simp [(Frame.loadCounter s k).cbus]
        have f2 : ∀ (b : Bool) (t : State), t.cbus = s.cbus → (if b then t.incCounter k else t).cbus = s.cbus :=
          fun b t ht => by cases b <;> simp [(Frame.incCounter t k).cbus, ht]
        simp only [performAll_nil, State.asserted, State.perform, f1, f2]
  | cells k =>
    simp only [State.invoke, State.cellHandler, Subscriber.select, State.wiring_getElem?]
    cases hc : s.comps[k]? with
    | none => simp [State.memory?, hc]
    | some c =>
      cases c with
      | register _ => simp [State.memory?, hc, Component.cfg]
      | counter _ => simp [State.memory?, hc, Component.cfg]
      | alu _ => simp [State.memory?, hc, Component.cfg]
      | memory m =>
        have hm : s.memory? k = some m := State.memory?_eq_some.2 hc
        simp only [hm, Option.map_some, Component.cfg, State.asserted]
        by_cases ha : m.mar.toNat < m.cfg.size
        · have hw : s.perform (.memWrite k) = s.storeCell k :=
            State.withCell_addressed hm ha (fun t => t.storeCell k)
          have hr : s.perform (.memRead k) = s.fetchCell k :=
            State.withCell_addressed hm ha (fun t => t.fetchCell k)
          have hwf : (s.perform (.memWrite k)).fault = none := by rw [hw, State.storeCell_eq hm]; exact hs
          rw [performAll_gated _ hs hwf, hw, State.withCell_addressed hm ha]
          unfold gated
          rcases Bool.eq_false_or_eq_true (lineAsserted s.cbus m.cfg.writeIndex) with hW | hW <;>
            rcases Bool.eq_false_or_eq_true (lineAsserted s.cbus m.cfg.readIndex) with hR | hR <;>
            simp only [hW, hR, Bool.false_eq_true, if_false, if_true, Bool.or_true, Bool.or_false, Bool.or_self,
              performAll_single, performAll_nil, hr]
          have hm' : (s.storeCell k).memory? k = some (m.writeCell m.mar.toNat (fromBus m.cfg.width s.dbus)) := by
            rw [State.storeCell_eq hm]
            exact State.memory?_eq_some.2 (State.setComp_comps_self _ _ _ _ hc)
          exact (State.withCell_addressed hm' ha (fun t => t.fetchCell k)).symm
        · have hf : ∀ act, s.withCell k act = s.raise (.invalidMemoryAddress m.mar.toNat) :=
            State.withCell_fault hm (by omega)
          have hw : s.perform (.memWrite k) = s.raise (.invalidMemoryAddress m.mar.toNat) := hf (fun t => t.storeCell k)
          have hr : s.perform (.memRead k) = s.raise (.invalidMemoryAddress m.mar.toNat) := hf (fun t => t.fetchCell k)
          have hfault : (s.perform (.memWrite k)).fault = some (.invalidMemoryAddress m.mar.toNat) := by
            rw [hw, State.raise_fault_of_none s _ hs]
          unfold gated
          rcases Bool.eq_false_or_eq_true (lineAsserted s.cbus m.cfg.writeIndex) with hW | hW <;>
            rcases Bool.eq_false_or_eq_true (lineAsserted s.cbus m.cfg.readIndex) with hR | hR <;>
            simp only [hW, hR, Bool.false_eq_true, if_false, if_true, Bool.or_true, Bool.or_false, Bool.or_self,
              List.nil_append, List.append_nil, List.singleton_append, performAll_cons_fault hfault, performAll_single,
              performAll_nil, hw, hr, hf]
  | recompute k =>
    simp only [State.invoke, State.recomputeHandler, Subscriber.select, State.wiring_getElem?, State.alu?]
    cases hc : s.comps[k]? with
    | none => rfl
    | some c =>
      cases c with
      | register _ => rfl
      | counter _ => rfl
      | memory _ => rfl
      | alu u =>
        simp only [Option.map_some, Component.cfg, performAll_single]
        cases s.cbus.getLsbD u.cfg.subIndex <;> rfl

/-- The frame of a core handler. -/
theorem Frame.invoke {s : State} (hs : s.fault = none) {h : Subscriber} (ho : ∀ cb, h ≠ .observer cb) :
    Frame s (s.invoke h) := by
  rw [State.invoke_eq_performAll hs ho]; exact .performAll _ s

/-! ### One dispatch -/

/-- What a dispatch keeps whatever it does: the Clock, the control bus, the agenda and the configuration (R61). -/
structure EdgeFrame (s t : State) : Prop where
  clk : t.clk = s.clk
  cbus : t.cbus = s.cbus
  agenda : t.agenda = s.agenda
  wiring : t.wiring = s.wiring

theorem EdgeFrame.refl (s : State) : EdgeFrame s s := ⟨rfl, rfl, rfl, rfl⟩

theorem EdgeFrame.trans {s t u : State} (h : EdgeFrame s t) (g : EdgeFrame t u) : EdgeFrame s u :=
  ⟨g.clk.trans h.clk, g.cbus.trans h.cbus, g.agenda.trans h.agenda, g.wiring.trans h.wiring⟩

theorem EdgeFrame.invoke {s : State} (hs : s.fault = none) (h : Subscriber) : EdgeFrame s (s.invoke h) := by
  by_cases ho : ∃ cb, h = .observer cb
  · obtain ⟨cb, rfl⟩ := ho; exact ⟨rfl, rfl, rfl, rfl⟩
  · have f := Frame.invoke hs (h := h) (fun cb e => ho ⟨cb, e⟩)
    exact ⟨f.clk, f.cbus, f.agenda, f.wiring⟩

theorem State.compsOk_invoke {s : State} (hs : s.fault = none) (h : s.compsOk) (sub : Subscriber) :
    (s.invoke sub).compsOk := by
  by_cases ho : ∃ cb, sub = .observer cb
  · obtain ⟨cb, rfl⟩ := ho; exact h
  · rw [State.invoke_eq_performAll hs (fun cb e => ho ⟨cb, e⟩)]; exact compsOk_performAll h _

theorem State.dispatchFrom_cons {pos : Nat} {h : Subscriber} {rest : List Subscriber} {s : State}
    (hf : (s.invoke h).fault = none) :
    State.dispatchFrom pos (h :: rest) s = State.dispatchFrom (pos + 1) rest (s.invoke h) := by
  simp [State.dispatchFrom, hf]

theorem State.dispatchFrom_cons_fault {pos : Nat} {h : Subscriber} {rest : List Subscriber} {s : State} {f : Fault}
    (hf : (s.invoke h).fault = some f) :
    State.dispatchFrom pos (h :: rest) s = { s.invoke h with reply := .subscriberFailure pos f } := by
  simp [State.dispatchFrom, hf]

theorem EdgeFrame.dispatchFrom (l : List Subscriber) (pos : Nat) {s : State} (hs : s.fault = none) :
    EdgeFrame s (State.dispatchFrom pos l s) := by
  induction l generalizing s pos with
  | nil => exact .refl s
  | cons h rest ih =>
    cases hf : (s.invoke h).fault with
    | none => rw [State.dispatchFrom_cons hf]; exact (EdgeFrame.invoke hs h).trans (ih _ hf)
    | some f =>
      rw [State.dispatchFrom_cons_fault hf]
      have g := EdgeFrame.invoke hs h
      exact ⟨g.clk, g.cbus, g.agenda, g.wiring⟩

theorem State.compsOk_dispatchFrom (l : List Subscriber) (pos : Nat) {s : State} (hs : s.fault = none) (h : s.compsOk) :
    (State.dispatchFrom pos l s).compsOk := by
  induction l generalizing s pos with
  | nil => exact h
  | cons x rest ih =>
    cases hf : (s.invoke x).fault with
    | none => rw [State.dispatchFrom_cons hf]; exact ih _ hf (State.compsOk_invoke hs h x)
    | some f => rw [State.dispatchFrom_cons_fault hf]; exact State.compsOk_invoke hs h x

/-- Invoking observers only tells them (R174). -/
theorem State.foldl_notify (l : List Nat) (s : State) : l.foldl State.notify s = { s with notified := s.notified ++ l } := by
  induction l generalizing s with
  | nil => simp
  | cons cb rest ih => simp [ih, State.notify]

theorem State.dispatchFalling_eq (s : State) : s.dispatchFalling = { s with notified := s.notified ++ s.clk.falling } :=
  State.foldl_notify _ s

/-- The transition from LOW (R111). -/
theorem State.transition_low {s : State} (h : s.clk.phase = .low) :
    s.transition = State.dispatchFrom 0 s.clk.rising (s.setClk { s.clk with phase := .high }) := by
  simp [State.transition, h]

/-- The transition from HIGH changes the phase and tells the falling observers, nothing else (R124). -/
theorem State.transition_high {s : State} (h : s.clk.phase = .high) :
    s.transition = { s with clk := { s.clk with phase := .low }, notified := s.notified ++ s.clk.falling } := by
  simp [State.transition, h, State.dispatchFalling_eq, State.setClk]

/-- What a transition can do to the Clock and to what no handler touches. -/
theorem State.transition_frame {s : State} (hs : s.fault = none) :
    s.transition.clk = { s.clk with phase := match s.clk.phase with | .low => .high | .high => .low } ∧
    s.transition.cbus = s.cbus ∧ s.transition.agenda = s.agenda ∧ s.transition.wiring = s.wiring := by
  cases h : s.clk.phase with
  | low =>
    rw [State.transition_low h]
    have g := EdgeFrame.dispatchFrom s.clk.rising 0 (s := s.setClk { s.clk with phase := .high }) hs
    exact ⟨g.clk, g.cbus, g.agenda, g.wiring⟩
  | high => rw [State.transition_high h]; exact ⟨rfl, rfl, rfl, rfl⟩

theorem State.compsOk_transition {s : State} (hs : s.fault = none) (h : s.compsOk) : s.transition.compsOk := by
  cases hp : s.clk.phase with
  | low => rw [State.transition_low hp]; exact State.compsOk_dispatchFrom _ _ hs h
  | high => rw [State.transition_high hp]; exact h

/-! ### What a dispatch reads, and what it does as a whole -/

/-- What no micro-operation looks at, replaced. -/
def State.retag (s : State) (c : Clock) (ag : List Instr) (r : Reply) (n : List Nat) : State :=
  { s with clk := c, agenda := ag, reply := r, notified := n }

/-- A micro-operation reads nothing of the Clock, the agenda and the outputs. -/
theorem State.perform_retag (s : State) (m : Micro) (c ag r n) :
    (s.retag c ag r n).perform m = (s.perform m).retag c ag r n := by
  cases m with
  | regDrive x => 
    have : (s.retag c ag r n).reg? x = s.reg? x := rfl
    simp only [State.perform, State.driveReg, this]; split <;> rfl
  | regLoad x => 
    have : (s.retag c ag r n).comps = s.comps := rfl
    simp only [State.perform, State.loadReg, State.updateReg, this]; split <;> rfl
  | cntLoad k =>
    have : (s.retag c ag r n).counter? k = s.counter? k := rfl
    simp only [State.perform, State.loadCounter, this]; split <;> rfl
  | cntInc k =>
    have : (s.retag c ag r n).counter? k = s.counter? k := rfl
    simp only [State.perform, State.incCounter, this]; split <;> rfl
  | cntDrive k =>
    have : (s.retag c ag r n).counter? k = s.counter? k := rfl
    simp only [State.perform, State.driveCounter, this]; split <;> rfl
  | memWrite k =>
    have : (s.retag c ag r n).memory? k = s.memory? k := rfl
    simp only [State.perform, State.writeMemory, State.withCell, State.storeCell, this]; split
    · split
      · rfl
      · simp only [State.raise]; cases h : s.fault <;> simp only [State.retag, h] 
    · rfl
  | memRead k =>
    have : (s.retag c ag r n).memory? k = s.memory? k := rfl
    simp only [State.perform, State.readMemory, State.withCell, State.fetchCell, this]; split
    · split
      · rfl
      · simp only [State.raise]; cases h : s.fault <;> simp only [State.retag, h] 
    · rfl
  | aluAdd k =>
    have : (s.retag c ag r n).alu? k = s.alu? k := rfl
    simp only [State.perform, State.recompute, this]; split <;> rfl
  | aluSub k =>
    have : (s.retag c ag r n).alu? k = s.alu? k := rfl
    simp only [State.perform, State.recompute, this]; split <;> rfl

theorem performAll_retag (ms : List Micro) (s : State) (c ag r n) :
    performAll ms (s.retag c ag r n) = (performAll ms s).retag c ag r n := by
  induction ms generalizing s with
  | nil => rfl
  | cons m ms ih =>
    have e : ((s.retag c ag r n).perform m).fault = (s.perform m).fault := by rw [State.perform_retag]; rfl
    cases h : (s.perform m).fault with
    | none => rw [performAll_cons h, performAll_cons (e.trans h), State.perform_retag, ih]
    | some f => rw [performAll_cons_fault h, performAll_cons_fault (e.trans h), State.perform_retag]

/-- A dispatch performs the micro-operations that its control word decodes to, in order and up to the first fault, and tells the
observers it reaches (R73, R112, R113). -/
theorem State.dispatchFrom_eq (l : List Subscriber) (pos : Nat) {s : State} (hs : s.fault = none) :
    ∃ r n, State.dispatchFrom pos l s =
        { performAll (decode s.wiring l s.cbus) s with reply := r, notified := s.notified ++ n } ∧
      n <+: l.filterMap observerOf ∧
      ((performAll (decode s.wiring l s.cbus) s).fault = none → r = s.reply ∧ n = l.filterMap observerOf) := by
  induction l generalizing s pos with
  | nil => exact ⟨s.reply, [], by simp [State.dispatchFrom, decode], by simp, fun _ => ⟨rfl, by simp⟩⟩
  | cons h rest ih =>
    by_cases ho : ∃ cb, h = .observer cb
    · obtain ⟨cb, rfl⟩ := ho
      obtain ⟨r, n, h1, hp, h2⟩ := ih (pos + 1) (s := s.notify cb) hs
      have e : s.notify cb = s.retag s.clk s.agenda s.reply (s.notified ++ [cb]) := rfl
      have ed : decode s.wiring (.observer cb :: rest) s.cbus = decode s.wiring rest s.cbus := by
        simp [decode, Subscriber.select]
      have ew : (s.notify cb).wiring = s.wiring := rfl
      rw [ew, State.notify_cbus, e, performAll_retag] at h1 h2
      have f := Frame.performAll (decode s.wiring rest s.cbus) s
      refine ⟨r, cb :: n, ?_, ?_, fun hf => ?_⟩
      · rw [State.dispatchFrom_cons (by exact hs)]
        show State.dispatchFrom (pos + 1) rest (s.notify cb) = _
        rw [ed, e, h1]
        simp only [State.retag, ← f.clk, ← f.agenda, List.append_assoc, List.singleton_append]
      · simpa [observerOf] using hp
      · rw [ed] at hf
        obtain ⟨h3, h4⟩ := h2 hf
        exact ⟨h3, by simp [h4, observerOf]⟩
    · have hi := State.invoke_eq_performAll hs (h := h) (fun cb e => ho ⟨cb, e⟩)
      have hc : observerOf h = none := by cases h <;> first | rfl | exact absurd ⟨_, rfl⟩ ho
      have f := Frame.performAll (h.select s.wiring s.cbus) s
      have ed : decode s.wiring (h :: rest) s.cbus = h.select s.wiring s.cbus ++ decode s.wiring rest s.cbus := by
        simp [decode]
      rw [ed, performAll_append _ _ _ hs, List.filterMap_cons_none hc]
      cases hf : (s.invoke h).fault with
      | none =>
        obtain ⟨r, n, h1, hp, h2⟩ := ih (pos + 1) hf
        rw [State.dispatchFrom_cons hf]
        rw [hi] at hf h1 h2 ⊢
        rw [f.wiring, f.cbus, f.notified] at h1
        rw [f.wiring, f.cbus] at h2
        simp only [hf]
        refine ⟨r, n, h1, hp, fun g => ?_⟩
        obtain ⟨h3, h4⟩ := h2 g
        exact ⟨h3.trans f.reply, h4⟩
      | some x =>
        rw [State.dispatchFrom_cons_fault hf]
        rw [hi] at hf ⊢
        simp only [hf]
        exact ⟨_, [], by rw [List.append_nil, ← f.notified], List.nil_prefix, fun g => by cases g⟩

/-- A dispatch reads nothing of the Clock. -/
theorem State.dispatchFrom_setClk (l : List Subscriber) (pos) {s : State} (hs : s.fault = none) (c : Clock) :
   State.dispatchFrom pos l (s.setClk c) = (State.dispatchFrom pos l s).setClk c := by
  induction l generalizing s pos with
  | nil => rfl
  | cons h rest ih =>
    have key : (s.setClk c).invoke h = (s.invoke h).setClk c := by
      by_cases ho : ∃ cb, h = .observer cb
      · obtain ⟨cb, rfl⟩ := ho; rfl
      · have hi := State.invoke_eq_performAll hs (h := h) (fun cb e => ho ⟨cb, e⟩)
        have hi2 := State.invoke_eq_performAll (s := s.setClk c) hs (h := h) (fun cb e => ho ⟨cb, e⟩)
        have e : s.setClk c = s.retag c s.agenda s.reply s.notified := rfl
        rw [hi, hi2]
        have ew : (s.setClk c).wiring = s.wiring := rfl
        have ec : (s.setClk c).cbus = s.cbus := rfl
        rw [ew, ec, e, performAll_retag]
        have f := Frame.performAll (h.select s.wiring s.cbus) s
        simp only [State.retag, State.setClk, ← f.agenda, ← f.reply, ← f.notified]
    cases hf : (s.invoke h).fault with
    | none =>
      rw [State.dispatchFrom_cons hf, State.dispatchFrom_cons (by rw [key]; exact hf), key, ih _ hf]
    | some f =>
      rw [State.dispatchFrom_cons_fault hf, State.dispatchFrom_cons_fault (f := f) (by rw [key]; exact hf), key]
      rfl

end Sys2Proof.Machine
end

