-- ==== Sys2Proof/Laws/Encoding.lean ====
section
/-! SUPPORT. Masks, the decoder over appended lists, and what a control word decodes to in `REF`. -/

namespace Sys2Proof

/-- A line's mask picks out whether the line is asserted. -/
theorem and_lineMask (w : Word) (l : Line) : w &&& lineMask l = if lineAsserted w l then lineMask l else 0#32 := by
  cases l with
  | none => simp [lineMask, lineAsserted]
  | some p =>
    simp only [lineMask, lineAsserted, Config.busLines]
    by_cases hp : p < 32
    · simp only [hp, if_true, decide_true, Bool.true_and]
      apply BitVec.eq_of_getLsbD_eq
      intro i hi
      have h1 : (1#32 <<< p).getLsbD i = decide (i = p) := by
        rw [BitVec.getLsbD_shiftLeft, BitVec.getLsbD_one]
        by_cases h : i = p
        · subst h; simp [hi]
        · simp [h]; omega
      rw [BitVec.getLsbD_and, h1]
      by_cases h : i = p
      · subst h; cases w.getLsbD i <;> simp [h1]
      · cases w.getLsbD p <;> simp [h1, h]
    · simp [hp]

theorem lineMask_ne_zero {p : Nat} (hp : p < 32) : lineMask (some p) ≠ 0#32 := by
  intro e
  have := congrArg (·.getLsbD p) e
  simp [lineMask, Config.busLines, hp] at this

/-- The match of a gated row: the masked word equals the mask exactly when the bit is 1. -/
theorem and_lineMask_eq_self (w : Word) {p : Nat} (hp : p < 32) :
    w &&& lineMask (some p) = lineMask (some p) ↔ w.getLsbD p = true := by
  rw [and_lineMask]
  simp only [lineAsserted, Config.busLines, hp, decide_true, Bool.true_and]
  rcases Bool.eq_false_or_eq_true (w.getLsbD p) with hb | hb
  · simp [hb]
  · simp [hb, (lineMask_ne_zero hp).symm]

/-- The match of `ALU.ADD`: the masked word is zero exactly when the bit is 0. -/
theorem and_lineMask_eq_zero (w : Word) {p : Nat} (hp : p < 32) :
    w &&& lineMask (some p) = 0#32 ↔ w.getLsbD p = false := by
  rw [and_lineMask]
  simp only [lineAsserted, Config.busLines, hp, decide_true, Bool.true_and]
  rcases Bool.eq_false_or_eq_true (w.getLsbD p) with hb | hb
  · simp [hb, lineMask_ne_zero hp]
  · simp [hb]

theorem encodeAll_append (wir : Wiring) (a b : List Micro) :
    encodeAll wir (a ++ b) = encodeAll wir a ||| encodeAll wir b := by
  induction a with
  | nil => simp [encodeAll]
  | cons m a ih =>
    simp only [encodeAll, List.cons_append, List.foldr_cons] at *
    rw [ih, BitVec.or_assoc]

theorem encodeAll_gated (wir : Wiring) (w : Word) (l : Line) (m : Micro) (h : m.encode wir = lineMask l) :
    encodeAll wir (gated w l m) = w &&& lineMask l := by
  rw [and_lineMask]; unfold gated; cases lineAsserted w l <;> simp [encodeAll, h]

theorem decode_append (wir : Wiring) (a b : List Subscriber) (w : Word) :
    decode wir (a ++ b) w = decode wir a w ++ decode wir b w := List.flatMap_append

/-- Two words that agree on a mask agree on every line inside it. -/
theorem lineAsserted_congr (v w M : Word) (l : Line) (h : v &&& M = w &&& M) (hl : lineMask l &&& M = lineMask l) :
    lineAsserted v l = lineAsserted w l := by
  cases l with
  | none => rfl
  | some p =>
    simp only [lineAsserted, lineMask, Config.busLines] at *
    by_cases hp : p < 32
    · simp only [hp, if_true, decide_true, Bool.true_and] at hl ⊢
      have h1 := congrArg (·.getLsbD p) hl
      have h2 := congrArg (·.getLsbD p) h
      simp [BitVec.getLsbD_shiftLeft] at h1 h2
      rw [h1 ‹_›] at h2; simpa using h2
    · simp [hp]

/-- The micro-operations of a control word in `REF`, in the order of R78. -/
theorem decode_ref (w : Word) : decode Config.ref (Wiring.handlers Config.ref) w =
    gated w (some 4) (.cntLoad 0) ++ gated w (some 5) (.cntInc 0) ++ gated w (some 6) (.cntDrive 0) ++
    gated w (some 7) (.regLoad ⟨1, .mar⟩) ++ gated w (some 9) (.memWrite 1) ++ gated w (some 8) (.memRead 1) ++
    gated w (some 10) (.regLoad ⟨2, .a⟩) ++ gated w (some 11) (.regLoad ⟨2, .b⟩) ++
    gated w (some 12) (.regDrive ⟨2, .out⟩) ++ [if w.getLsbD 13 then .aluSub 2 else .aluAdd 2] ++
    gated w (some 1) (.regDrive ⟨3, .whole⟩) ++ gated w (some 0) (.regLoad ⟨3, .whole⟩) ++
    gated w (some 3) (.regDrive ⟨4, .whole⟩) ++ gated w (some 2) (.regLoad ⟨4, .whole⟩) := by
  have hn : ∀ m, gated w none m = [] := fun _ => rfl
  show List.flatMap (Subscriber.select Config.ref w) [ .counter 0, .reg ⟨1, .mar⟩, .cells 1, .reg ⟨2, .a⟩,
    .reg ⟨2, .b⟩, .reg ⟨2, .out⟩, .recompute 2, .reg ⟨3, .whole⟩, .reg ⟨4, .whole⟩ ] = _
  simp only [List.flatMap_cons, List.flatMap_nil, Subscriber.select, Config.ref, List.getElem?_cons_zero,
    List.getElem?_cons_succ, Option.bind_some, CompCfg.regCfg?, hn, List.nil_append, List.append_nil, List.append_assoc]

/-- The row of a micro-operation is the row that stands for it. -/
theorem Micro.row?_micro? {m : Micro} {i : Instr} (h : m.row? = some i) : i.micro? = some m := by
  unfold Micro.row? at h
  split at h <;> first | (cases h; rfl) | cases h

end Sys2Proof
end

