-- ==== Sys2Proof/Laws/Step.lean ====
section
/-! SUPPORT. What one instruction and one step can do, said once: every next state of `exec` is one of twelve effects, and
every next state of `step` is `exec`'s on the next transaction, or the state at rest. -/

namespace Sys2Proof.Machine

open Sys2Proof

/-- How a clock command or a subscription may change the Clock: never the phase or the cycle state, `running` only when no
cycle is pending, the interval only inside its bounds, the rising list only by one observer at its end. -/
structure ClockFrame (c d : Clock) : Prop where
  phase : d.phase = c.phase
  cycleState : d.cycleState = c.cycleState
  running : d.running = c.running ∨ c.cycleState = .idle
  interval : d.interval = c.interval ∨ (Config.intervalMin ≤ d.interval ∧ d.interval ≤ Config.intervalMax)
  rising : d.rising = c.rising ∨ ∃ cb, d.rising = c.rising ++ [.observer cb]

/-- The states that an instruction may answer from a state without a fault. -/
inductive Effect (i : Instr) (s : State) : State → Prop where
  | micro (m : Micro) (hi : i.micro? = some m) : Effect i s (s.perform m)
  | transition (hi : i = .clkStep ∧ s.clk.cycleState = .idle ∨ i = .clkTick ∧ s.clk.running = true) :
      Effect i s s.opened.transition
  | beginCycle (hi : i = .clkCycle) (hc : s.clk.cycleState = .idle) (hp : s.clk.phase = .low) : Effect i s s.beginCycle
  | endCycle (hi : i = .clkCycleFall) (hc : s.clk.cycleState = .pendingFall) : Effect i s s.endCycle
  | clock (c : Clock) (r : Reply) (hc : ClockFrame s.clk c) : Effect i s ((s.setClk c).answer r)
  | answer (r : Reply) : Effect i s (s.answer r)
  | raised (k : Nat) (m : Memory) (hm : s.memory? k = some m) (ha : m.cfg.size ≤ m.mar.toNat) :
      Effect i s ((s.raise (.invalidMemoryAddress m.mar.toNat)).answer (.raised (.invalidMemoryAddress m.mar.toNat)))
  | register (r : RegRef) (f : (w : Nat) → BitVec w → BitVec w) : Effect i s ((s.updateReg r f).answer .nothing)
  | counter (k : Nat) (c : Counter) (v : BitVec c.cfg.width) (hc : s.counter? k = some c) :
      Effect i s ((s.setComp k (.counter { c with value := v })).answer .nothing)
  | cell (k : Nat) (m : Memory) (v : BitVec m.cfg.width) (hm : s.memory? k = some m) (ha : m.mar.toNat < m.cfg.size) :
      Effect i s ((s.setComp k (.memory (m.writeCell m.mar.toNat v))).answer .nothing)
  | dataBus (v : Word) : Effect i s ((s.setBus .dbus v).answer .nothing)
  | controlBus (v : Word) (hi : (∃ j w, i = .busSet .cbus j w) ∨ ∃ w, i = .busAssign .cbus w) :
      Effect i s ((s.setBus .cbus v).answer .nothing)

theorem ClockFrame.setInterval (c : Clock) (ms : Int) : ClockFrame c { c with interval := clampInterval ms } :=
  ⟨rfl, rfl, .inl rfl, .inr (clampInterval_bounds ms), .inl rfl⟩

theorem State.withInterval_eq (s : State) (ms : Int) :
    s.withInterval ms = s.setClk { s.clk with interval := clampInterval ms } := by
  simp only [State.withInterval, State.stopTimer, State.startTimer, State.setClk]
  rcases Bool.eq_false_or_eq_true s.clk.running with h | h <;> rw [h] <;> simp

theorem Effect.hostCell {i : Instr} {s : State} {k : Nat} {m : Memory} (hm : s.memory? k = some m) (j : Int)
    (act : Nat → State) (h : ∀ n, m.mar.toNat < m.cfg.size → Effect i s (act n)) : Effect i s (s.hostCell m j act) := by
  unfold State.hostCell
  split
  · exact .answer _
  · split
    · rename_i ha
      exact h _ (by simpa [Memory.addressed] using ha)
    · rename_i ha
      exact .raised k m hm (by simpa [Memory.addressed] using ha)

theorem Effect.setRegBit (i : Instr) (s : State) (r : RegRef) (reg : Register) (j : Int) (v : Option Int) :
    Effect i s (s.setRegBit r reg j v) := by
  unfold State.setRegBit
  split
  · exact .register _ _
  · exact .answer _

/-- What an instruction can do when it answers a next state. -/
theorem exec_eq_next {i : Instr} {s t : State} (h : exec i s = .next t) : s.fault = none ∧ Effect i s t := by
  cases i with
  | regLoadR0 => obtain ⟨hs, _, -, h⟩ := onReg_eq_next h; cases h; exact ⟨hs, .micro (.regLoad _) rfl⟩
  | regDriveR0 => obtain ⟨hs, _, -, h⟩ := onReg_eq_next h; cases h; exact ⟨hs, .micro (.regDrive _) rfl⟩
  | regLoadR1 => obtain ⟨hs, _, -, h⟩ := onReg_eq_next h; cases h; exact ⟨hs, .micro (.regLoad _) rfl⟩
  | regDriveR1 => obtain ⟨hs, _, -, h⟩ := onReg_eq_next h; cases h; exact ⟨hs, .micro (.regDrive _) rfl⟩
  | cntLoad => obtain ⟨hs, _, -, h⟩ := onCounter_eq_next h; cases h; exact ⟨hs, .micro (.cntLoad _) rfl⟩
  | cntInc => obtain ⟨hs, _, -, h⟩ := onCounter_eq_next h; cases h; exact ⟨hs, .micro (.cntInc _) rfl⟩
  | cntDrive => obtain ⟨hs, _, -, h⟩ := onCounter_eq_next h; cases h; exact ⟨hs, .micro (.cntDrive _) rfl⟩
  | memAddrLoad => obtain ⟨hs, _, -, h⟩ := onReg_eq_next h; cases h; exact ⟨hs, .micro (.regLoad _) rfl⟩
  | memRead => obtain ⟨hs, _, -, h⟩ := onMemory_eq_next h; cases h; exact ⟨hs, .micro (.memRead _) rfl⟩
  | memWrite => obtain ⟨hs, _, -, h⟩ := onMemory_eq_next h; cases h; exact ⟨hs, .micro (.memWrite _) rfl⟩
  | aluALoad => obtain ⟨hs, _, -, h⟩ := onReg_eq_next h; cases h; exact ⟨hs, .micro (.regLoad _) rfl⟩
  | aluBLoad => obtain ⟨hs, _, -, h⟩ := onReg_eq_next h; cases h; exact ⟨hs, .micro (.regLoad _) rfl⟩
  | aluOutDrive => obtain ⟨hs, _, -, h⟩ := onReg_eq_next h; cases h; exact ⟨hs, .micro (.regDrive _) rfl⟩
  | aluAdd => obtain ⟨hs, _, -, h⟩ := onAlu_eq_next h; cases h; exact ⟨hs, .micro (.aluAdd _) rfl⟩
  | aluSub => obtain ⟨hs, _, -, h⟩ := onAlu_eq_next h; cases h; exact ⟨hs, .micro (.aluSub _) rfl⟩
  | clkStep => obtain ⟨hs, hc, h⟩ := unlessPending_eq_next h; cases h; exact ⟨hs, .transition (.inl ⟨rfl, hc⟩)⟩
  | clkStart =>
    obtain ⟨hs, hc, h⟩ := unlessPending_eq_next h; cases h
    exact ⟨hs, .clock _ _ ⟨rfl, rfl, .inr hc, .inl rfl, .inl rfl⟩⟩
  | clkStop =>
    obtain ⟨hs, hc, h⟩ := unlessPending_eq_next h; cases h
    exact ⟨hs, .clock _ _ ⟨rfl, rfl, .inr hc, .inl rfl, .inl rfl⟩⟩
  | clkSetInterval ms =>
    obtain ⟨hs, -, h⟩ := unlessPending_eq_next h; cases h
    rw [State.withInterval_eq]
    exact ⟨hs, .clock _ _ (.setInterval _ ms)⟩
  | clkCycle =>
    obtain ⟨hs, h⟩ := live_eq_next h
    split at h
    · cases h; exact ⟨hs, .answer _⟩
    · rename_i hc
      split at h
      · cases h; exact ⟨hs, .beginCycle rfl (by simpa [State.cyclePending] using hc) ‹_›⟩
      · cases h
  | clkAddRising cb =>
    obtain ⟨hs, h⟩ := live_eq_next h; cases h
    exact ⟨hs, .clock _ _ ⟨rfl, rfl, .inl rfl, .inl rfl, .inr ⟨cb, rfl⟩⟩⟩
  | clkAddFalling cb =>
    obtain ⟨hs, h⟩ := live_eq_next h; cases h
    exact ⟨hs, .clock _ _ ⟨rfl, rfl, .inl rfl, .inl rfl, .inl rfl⟩⟩
  | clkTick =>
    obtain ⟨hs, h⟩ := live_eq_next h
    split at h
    · cases h; exact ⟨hs, .transition (.inr ⟨rfl, ‹_›⟩)⟩
    · cases h
  | clkCycleFall =>
    obtain ⟨hs, h⟩ := live_eq_next h
    split at h
    · cases h; exact ⟨hs, .endCycle rfl ‹_›⟩
    · cases h
    · cases h
  | busGet b j => obtain ⟨hs, h⟩ := live_eq_next h; cases h; exact ⟨hs, .answer _⟩
  | busSet b j v =>
    obtain ⟨hs, h⟩ := live_eq_next h; cases h
    refine ⟨hs, ?_⟩
    unfold State.setBusLine
    split
    · cases b
      · exact .dataBus _
      · exact .controlBus _ (.inl ⟨_, _, rfl⟩)
    · exact .answer _
  | busAssign b v =>
    obtain ⟨hs, h⟩ := live_eq_next h
    split at h
    · cases h
      cases b
      · exact ⟨hs, .dataBus _⟩
      · exact ⟨hs, .controlBus _ (.inr ⟨_, rfl⟩)⟩
    · cases h
  | busRead b => obtain ⟨hs, h⟩ := live_eq_next h; cases h; exact ⟨hs, .answer _⟩
  | regGet r j => obtain ⟨hs, _, -, h⟩ := onReg_eq_next h; cases h; exact ⟨hs, .answer _⟩
  | regSet r j v => obtain ⟨hs, _, -, h⟩ := onReg_eq_next h; cases h; exact ⟨hs, .setRegBit ..⟩
  | cntGet k j => obtain ⟨hs, _, -, h⟩ := onCounter_eq_next h; cases h; exact ⟨hs, .answer _⟩
  | cntSet k j v =>
    obtain ⟨hs, c, hc, h⟩ := onCounter_eq_next h; cases h
    refine ⟨hs, ?_⟩
    unfold State.setCounterBit
    split
    · exact .counter k c _ hc
    · exact .answer _
  | memGet k j =>
    obtain ⟨hs, m, hm, h⟩ := onMemory_eq_next h; cases h
    exact ⟨hs, .hostCell hm j _ fun _ _ => .answer _⟩
  | memSet k j v =>
    obtain ⟨hs, m, hm, h⟩ := onMemory_eq_next h; cases h
    exact ⟨hs, .hostCell hm j _ fun _ ha => .cell k m _ hm ha⟩
  | aluGet k n j => obtain ⟨hs, _, -, h⟩ := onReg_eq_next h; cases h; exact ⟨hs, .answer _⟩
  | aluSet k n j v =>
    cases n with
    | none => obtain ⟨-, h⟩ := live_eq_next h; cases h
    | some n => obtain ⟨hs, _, -, h⟩ := onReg_eq_next h; cases h; exact ⟨hs, .setRegBit ..⟩
  | gateAnd a b => obtain ⟨hs, h⟩ := live_eq_next h; cases h; exact ⟨hs, .answer _⟩
  | gateOr a b => obtain ⟨hs, h⟩ := live_eq_next h; cases h; exact ⟨hs, .answer _⟩
  | gateNand a b => obtain ⟨hs, h⟩ := live_eq_next h; cases h; exact ⟨hs, .answer _⟩
  | gateNor a b => obtain ⟨hs, h⟩ := live_eq_next h; cases h; exact ⟨hs, .answer _⟩
  | gateXor a b => obtain ⟨hs, h⟩ := live_eq_next h; cases h; exact ⟨hs, .answer _⟩
  | fullAdd c a b => obtain ⟨hs, h⟩ := live_eq_next h; cases h; exact ⟨hs, .answer _⟩

/-- What follows a transition in its transaction keeps whatever both the transition and the rest keep. -/
theorem State.unlessFailed_keeps {α : Type} (g : State → α) (t : State) (f : State → State) (h : g (f t) = g t) :
    g (t.unlessFailed f) = g t := by
  unfold State.unlessFailed
  split
  · exact h
  · rfl

/-- The next transaction starts from the state with its entry taken off the agenda. -/
theorem State.nextTransaction_eq_some {s u : State} {i : Instr} (h : s.nextTransaction = some (i, u)) :
    ∃ ag, u = { s with agenda := ag } := by
  unfold State.nextTransaction at h
  split at h
  · cases h; exact ⟨_, rfl⟩
  · split at h
    · cases h; exact ⟨s.agenda, rfl⟩
    · split at h
      · cases h; exact ⟨s.agenda, rfl⟩
      · cases h

/-- What a step can do when it answers a next state. -/
theorem step_eq_next {s t : State} (h : step s = .next t) :
    s.fault = none ∧ (s.nextTransaction = none ∧ t = s ∨
      ∃ i u, s.nextTransaction = some (i, u) ∧ isTransaction i = true ∧ exec i u = .next t) := by
  unfold step at h
  split at h
  · cases h
  · refine ⟨‹_›, ?_⟩
    split at h
    · cases h; exact .inl ⟨‹_›, rfl⟩
    · split at h
      · exact .inr ⟨_, _, ‹_›, ‹_›, h⟩
      · cases h

end Sys2Proof.Machine
end

