-- ==== Sys2Proof/Laws/Fetch.lean ====
section
/-! SUPPORT. The step that fetches a control word, and the components of a circuit wired as `REF`. -/

namespace Sys2Proof.Machine

open Sys2Proof

/-- A rising `CLK.STEP`. -/
theorem exec_clkStep_low {s : State} (hs : s.fault = none) (hc : s.clk.cycleState = .idle) (hp : s.clk.phase = .low) :
    exec .clkStep s = .next (State.dispatchFrom 0 s.clk.rising
      { s with clk := { s.clk with phase := .high }, reply := .nothing, notified := [] }) := by
  simp [exec, execClkStep, unlessPending, live_of_none hs, State.cyclePending, hc, State.transition, State.opened, hp,
    State.setClk]

/-- The step that fetches a control word is a rising edge under that word. -/
theorem step_withFetchWord {s : State} (hs : s.fault = none) (n w : Nat) : step (s.withFetchWord n w) =
    .next (State.dispatchFrom 0 s.clk.rising { s with
      cbus := BitVec.ofNat 32 (w % 2 ^ n), clk := { s.clk with phase := .high, cycleState := .idle }
      reply := .nothing, notified := [] }) := by
  have h : (s.withFetchWord n w).fault = none := hs
  unfold step; rw [h]
  exact exec_clkStep_low (s := { s with
    cbus := BitVec.ofNat 32 (w % 2 ^ n), clk := { s.clk with phase := .low, cycleState := .idle } }) hs rfl rfl

/-- No component registers a host observer. -/
theorem observerOf_handlers (k : Nat) (w : Wiring) : (Wiring.handlersFrom k w).filterMap observerOf = [] := by
  induction w generalizing k with
  | nil => rfl
  | cons c w ih => cases c <;> (simp only [Wiring.handlersFrom, CompCfg.handlers, List.filterMap_append, ih]; rfl)

/-- The five components of a circuit wired as `REF`. -/
theorem State.isRef.comps_eq {s : State} (h : s.isRef) : ∃ v mar cells a b out x y, s.comps =
    [ .counter ⟨⟨4, some 4, some 5, some 6⟩, v⟩, .memory ⟨⟨8, 16, some 7, some 8, some 9⟩, mar, cells⟩,
      .alu ⟨⟨8, some 10, some 11, some 12, 13⟩, a, b, out⟩, .register ⟨⟨8, some 0, some 1⟩, x⟩,
      .register ⟨⟨4, some 2, some 3⟩, y⟩ ] := by
  have hw := h.wiring
  unfold State.wiring Config.ref at hw
  match hc : s.comps, hw with
  | [.counter ⟨c0, v⟩, .memory ⟨c1, mar, cells⟩, .alu ⟨c2, a, b, out⟩, .register ⟨c3, x⟩, .register ⟨c4, y⟩], hw =>
    simp only [List.map_cons, List.map_nil, Component.cfg, List.cons.injEq, CompCfg.counter.injEq, CompCfg.memory.injEq,
      CompCfg.alu.injEq, CompCfg.register.injEq, and_true] at hw
    obtain ⟨rfl, rfl, rfl, rfl, rfl⟩ := hw
    exact ⟨v, mar, cells, a, b, out, x, y, rfl⟩

end Sys2Proof.Machine
end

