-- ==== Sys2Proof/Laws/PerInstr.lean ====
section
/-! SUPPORT. Statements made for all instructions, one lemma a constructor. Family RoundTrip: a row of format CW is read back
from the word the encoder writes for it; the other rows have no word (R80). -/

namespace Sys2Proof.Laws.RoundTrip

open Sys2Proof

/-- An instruction that has a word is what the decoder reads from it. -/
def Statement (i : Instr) : Prop := ∀ w, encode i = some w → decodeTableWord 32 w.toNat = some i

theorem regLoadR0 : Statement .regLoadR0 := by
  intro w h; cases h; decide

theorem regDriveR0 : Statement .regDriveR0 := by
  intro w h; cases h; decide

theorem regLoadR1 : Statement .regLoadR1 := by
  intro w h; cases h; decide

theorem regDriveR1 : Statement .regDriveR1 := by
  intro w h; cases h; decide

theorem cntLoad : Statement .cntLoad := by
  intro w h; cases h; decide

theorem cntInc : Statement .cntInc := by
  intro w h; cases h; decide

theorem cntDrive : Statement .cntDrive := by
  intro w h; cases h; decide

theorem memAddrLoad : Statement .memAddrLoad := by
  intro w h; cases h; decide

theorem memRead : Statement .memRead := by
  intro w h; cases h; decide

theorem memWrite : Statement .memWrite := by
  intro w h; cases h; decide

theorem aluALoad : Statement .aluALoad := by
  intro w h; cases h; decide

theorem aluBLoad : Statement .aluBLoad := by
  intro w h; cases h; decide

theorem aluOutDrive : Statement .aluOutDrive := by
  intro w h; cases h; decide

theorem aluAdd : Statement .aluAdd := by
  intro w h; cases h; decide

theorem aluSub : Statement .aluSub := by
  intro w h; cases h; decide

theorem clkStep : Statement .clkStep := by
  intro w h; cases h

theorem clkStart : Statement .clkStart := by
  intro w h; cases h

theorem clkStop : Statement .clkStop := by
  intro w h; cases h

theorem clkSetInterval (ms : Int) : Statement (.clkSetInterval ms) := by
  intro w h; cases h

theorem clkCycle : Statement .clkCycle := by
  intro w h; cases h

theorem clkAddRising (callback : Nat) : Statement (.clkAddRising callback) := by
  intro w h; cases h

theorem clkAddFalling (callback : Nat) : Statement (.clkAddFalling callback) := by
  intro w h; cases h

theorem clkTick : Statement .clkTick := by
  intro w h; cases h

theorem clkCycleFall : Statement .clkCycleFall := by
  intro w h; cases h

theorem busGet (bus : BusId) (index : Int) : Statement (.busGet bus index) := by
  intro w h; cases h

theorem busSet (bus : BusId) (index : Int) (value : Option Int) : Statement (.busSet bus index value) := by
  intro w h; cases h

theorem busAssign (bus : BusId) (v : Int) : Statement (.busAssign bus v) := by
  intro w h; cases h

theorem busRead (bus : BusId) : Statement (.busRead bus) := by
  intro w h; cases h

theorem regGet (r : RegRef) (index : Int) : Statement (.regGet r index) := by
  intro w h; cases h

theorem regSet (r : RegRef) (index : Int) (value : Option Int) : Statement (.regSet r index value) := by
  intro w h; cases h

theorem cntGet (k : Nat) (index : Int) : Statement (.cntGet k index) := by
  intro w h; cases h

theorem cntSet (k : Nat) (index : Int) (value : Option Int) : Statement (.cntSet k index value) := by
  intro w h; cases h

theorem memGet (k : Nat) (index : Int) : Statement (.memGet k index) := by
  intro w h; cases h

theorem memSet (k : Nat) (index : Int) (value : Option Int) : Statement (.memSet k index value) := by
  intro w h; cases h

theorem aluGet (k : Nat) (named : Option AluReg) (index : Int) : Statement (.aluGet k named index) := by
  intro w h; cases h

theorem aluSet (k : Nat) (named : Option AluReg) (index : Int) (value : Option Int) : Statement (.aluSet k named index value) := by
  intro w h; cases h

theorem gateAnd (a b : Bit) : Statement (.gateAnd a b) := by
  intro w h; cases h

theorem gateOr (a b : Bit) : Statement (.gateOr a b) := by
  intro w h; cases h

theorem gateNand (a b : Bit) : Statement (.gateNand a b) := by
  intro w h; cases h

theorem gateNor (a b : Bit) : Statement (.gateNor a b) := by
  intro w h; cases h

theorem gateXor (a b : Bit) : Statement (.gateXor a b) := by
  intro w h; cases h

theorem fullAdd (cin a b : Bit) : Statement (.fullAdd cin a b) := by
  intro w h; cases h

end Sys2Proof.Laws.RoundTrip
end

