-- ==== Sys2Proof/Tests/Slice0.lean ====
section
/-! SUPPORT. The model's own tests. Expected results are the spec's: vectors S, T and programs P of 95_test_vectors.md, and the
encodings of 30_encoding.md R78. The witnesses at the end show that the hypotheses of the statements can be met. -/

namespace Sys2Proof.Tests

open Sys2Proof Sys2Proof.Machine

/-! ### Helpers -/

/-- `REF` with given values; `cell` is one cell, an address below 16 and a value that is not zero. -/
def ref (cnt : BitVec 4) (mar : BitVec 8) (cells : List (Nat × BitVec 8)) (a b out r0 : BitVec 8) (r1 : BitVec 4)
    (dbus : Word) : State :=
  { State.initial 2 Config.ref with
    dbus := dbus
    comps :=
      [ .counter ⟨⟨4, some 4, some 5, some 6⟩, cnt⟩, .memory ⟨⟨8, 16, some 7, some 8, some 9⟩, mar, cells⟩,
        .alu ⟨⟨8, some 10, some 11, some 12, 13⟩, a, b, out⟩, .register ⟨⟨8, some 0, some 1⟩, r0⟩,
        .register ⟨⟨4, some 2, some 3⟩, r1⟩ ] }

/-- The state most tests start from. -/
def s0 : State := ref 7 5 [(5, 0x11)] 3 5 8 0xAB 0xB 0x1AB

/-- The same with the address register naming no cell. -/
def sBad : State := ref 7 16 [(5, 0x11)] 3 5 8 0xAB 0xB 0x1AB

/-- A clock HIGH and idle. -/
def sHigh : State := s0.setClk { s0.clk with phase := .high }

/-- A pending cycle. -/
def sPending : State := s0.setClk { s0.clk with phase := .high, cycleState := .pendingFall }

/-- Free-run, LOW. -/
def sRunning : State := s0.setClk { s0.clk with running := true }

/-- Two host observers on each list. -/
def sWatched : State := s0.setClk { s0.clk with rising := s0.clk.rising ++ [.observer 4, .observer 9], falling := [4, 9] }

/-- A run that has faulted. -/
def sFaulted : State := sBad.raise (.invalidMemoryAddress 16)

/-- A next state that satisfies a check. -/
def ok (o : Host.Outcome State Fault Refusal) (p : State → Bool) : Bool :=
  match o with
  | .next t => p t
  | .fault _ => false
  | .refused _ => false

/-- A refusal for a given reason. -/
def refuses (o : Host.Outcome State Fault Refusal) (r : Refusal) : Bool :=
  match o with
  | .next _ => false
  | .fault _ => false
  | .refused r' => r == r'

/-- The rising edge under a control word. -/
def edge (s : State) (w : Nat) (p : State → Bool) : Bool := ok (step (s.withFetchWord 32 w)) p

/-- A register's value. -/
def reg (s : State) (k : Nat) (p : RegPart) : Option Nat := (s.reg? ⟨k, p⟩).map fun r => r.value.toNat

/-- The counter's value. -/
def cnt (s : State) : Option Nat := (s.counter? 0).map fun c => c.value.toNat

/-- A check that holds of an outcome's next state shows that there is one. -/
theorem exists_of_ok {o : Host.Outcome State Fault Refusal} {p : State → Bool} (h : ok o p = true) :
    ∃ t, o = .next t ∧ p t = true := by
  cases o with
  | next t => exact ⟨t, rfl, h⟩
  | fault f => cases h
  | refused r => cases h

/-! ### Decoding: the words of R78, bit by bit -/

theorem test_decode_regLoadR0 : decodeTableWord 32 0b00000000000000000000000000000001 = some .regLoadR0 := by decide
theorem test_decode_regDriveR0 : decodeTableWord 32 0b00000000000000000000000000000010 = some .regDriveR0 := by decide
theorem test_decode_regLoadR1 : decodeTableWord 32 0b00000000000000000000000000000100 = some .regLoadR1 := by decide
theorem test_decode_regDriveR1 : decodeTableWord 32 0b00000000000000000000000000001000 = some .regDriveR1 := by decide
theorem test_decode_cntLoad : decodeTableWord 32 0b00000000000000000000000000010000 = some .cntLoad := by decide
theorem test_decode_cntInc : decodeTableWord 32 0b00000000000000000000000000100000 = some .cntInc := by decide
theorem test_decode_cntDrive : decodeTableWord 32 0b00000000000000000000000001000000 = some .cntDrive := by decide
theorem test_decode_memAddrLoad : decodeTableWord 32 0b00000000000000000000000010000000 = some .memAddrLoad := by decide
theorem test_decode_memRead : decodeTableWord 32 0b00000000000000000000000100000000 = some .memRead := by decide
theorem test_decode_memWrite : decodeTableWord 32 0b00000000000000000000001000000000 = some .memWrite := by decide
theorem test_decode_aluALoad : decodeTableWord 32 0b00000000000000000000010000000000 = some .aluALoad := by decide
theorem test_decode_aluBLoad : decodeTableWord 32 0b00000000000000000000100000000000 = some .aluBLoad := by decide
theorem test_decode_aluOutDrive : decodeTableWord 32 0b00000000000000000001000000000000 = some .aluOutDrive := by decide
theorem test_decode_aluAdd : decodeTableWord 32 0b00000000000000000000000000000000 = some .aluAdd := by decide
theorem test_decode_aluSub : decodeTableWord 32 0b00000000000000000010000000000000 = some .aluSub := by decide
theorem test_decode_wrong_length : decodeTableWord 31 0x1 = none ∧ decodeTableWord 64 0x1 = none := by decide
/-- Several lines at once, in the order of R78; bits 14 to 31 are inert (T133). -/
theorem test_decode_many : decodeRef 0xFFFFC301#32 = [.memWrite, .memRead, .aluAdd, .regLoadR0] := by decide

/-! ### Well-formedness refuses -/

/-- A circuit of one of each kind: counter, memory, alu, register. -/
def shape : Shape := [.counter, .memory, .alu, .register]

theorem test_wf_rows_need_components :
    [ Instr.regLoadR0, .regDriveR0, .regLoadR1, .regDriveR1, .cntLoad, .cntInc, .cntDrive, .memAddrLoad, .memRead, .memWrite,
      .aluALoad, .aluBLoad, .aluOutDrive, .aluAdd, .aluSub ].all (fun i => !i.wf [] && !i.wf [.alu, .register, .counter]) := by
  decide
theorem test_wf_regGet_of_a_counter : Instr.wf shape (.regGet ⟨0, .whole⟩ 0) = false := by decide
theorem test_wf_regGet_wrong_part : Instr.wf shape (.regGet ⟨3, .mar⟩ 0) = false := by decide
theorem test_wf_regSet_missing : Instr.wf shape (.regSet ⟨9, .whole⟩ 0 none) = false := by decide
theorem test_wf_cntGet_of_a_memory : Instr.wf shape (.cntGet 1 0) = false := by decide
theorem test_wf_cntSet_missing : Instr.wf shape (.cntSet 4 0 none) = false := by decide
theorem test_wf_memGet_of_an_alu : Instr.wf shape (.memGet 2 0) = false := by decide
theorem test_wf_memSet_of_a_counter : Instr.wf shape (.memSet 0 0 none) = false := by decide
theorem test_wf_aluGet_of_a_register : Instr.wf shape (.aluGet 3 none 0) = false := by decide
theorem test_wf_aluSet_of_a_memory : Instr.wf shape (.aluSet 1 (some .a) 0 none) = false := by decide
theorem test_wf_aluSet_names_no_register : Instr.wf shape (.aluSet 2 none 0 none) = false := by decide
theorem test_wf_busAssign_negative : Instr.wf shape (.busAssign .dbus (-1)) = false := by decide
theorem test_wf_busAssign_too_large : Instr.wf shape (.busAssign .cbus 4294967296) = false := by decide
theorem test_wf_accepts : [ Instr.regGet ⟨1, .mar⟩ 0, .cntSet 0 0 none, .memGet 1 0, .aluSet 2 (some .b) 0 none,
    .busAssign .cbus 4294967295, .clkStep ].all (Instr.wf shape) := by decide

/-! ### Micro-operations, through the rising edge that selects them -/

/-- S3, T40. -/
theorem test_load_truncates :
    edge s0 0x5 (fun t => reg t 3 .whole == some 0xAB && reg t 4 .whole == some 0xB && t.dbus == 0x1AB#32) := by
  decide
/-- S4. -/
theorem test_regDriveR0 : edge s0 0x2 (fun t => t.dbus == 0xAB#32) := by decide
/-- T41: the upper lines are wiped. -/
theorem test_regDriveR1 : edge s0 0x8 (fun t => t.dbus == 0xB#32) := by decide
/-- T43: both lines, no exchange. -/
theorem test_register_no_exchange :
    edge (ref 0 0 [] 0 0 0 0x0B 0 0x77) 0x3 (fun t => reg t 3 .whole == some 0x0B && t.dbus == 0x0B#32) := by
  decide
/-- T47: the stale bus. -/
theorem test_stale_bus :
    edge (ref 0 0 [] 0 0 0 0xAB 0xB 0x77) 0x9 (fun t => reg t 3 .whole == some 0x77 && t.dbus == 0x0B#32) := by
  decide
/-- T60. -/
theorem test_cntLoad : edge (ref 7 0 [] 0 0 0 0 0 0xFE) 0x10 (fun t => cnt t == some 0xE && t.dbus == 0xFE#32) := by
  decide
/-- T69. -/
theorem test_cntInc_wraps : edge (ref 0xF 0 [] 0 0 0 0 0 0) 0x20 (fun t => cnt t == some 0) := by decide
/-- T62. -/
theorem test_cntDrive : edge (ref 7 0 [] 0 0 0 0 0 0xFE) 0x40 (fun t => cnt t == some 7 && t.dbus == 7#32) := by
  decide
/-- T66: load, increment, drive. -/
theorem test_counter_all_three :
    edge (ref 7 0 [] 0 0 0 0 0 0xFE) 0x70 (fun t => cnt t == some 0xF && t.dbus == 0xF#32) := by decide
/-- T80. -/
theorem test_memAddrLoad : edge (ref 0 0 [] 0 0 0 0 0 0x105) 0x80 (fun t => reg t 1 .mar == some 5) := by decide
/-- T82. -/
theorem test_memRead : edge (ref 0 5 [(5, 0xAB)] 0 0 0 0 0 0xFFFFFFFF) 0x100 (fun t => t.dbus == 0xAB#32) := by
  decide
/-- T81. -/
theorem test_memWrite :
    edge s0 0x200 (fun t => t.cellAt 1 5 == some 0xAB && t.cellAt 1 4 == some 0 && t.dbus == 0x1AB#32) := by
  decide
/-- T83: the read sees what the write left. -/
theorem test_write_then_read : edge s0 0x300 (fun t => t.cellAt 1 5 == some 0xAB && t.dbus == 0xAB#32) := by
  decide
/-- T91: the address loaded on the edge is the one that faults; nothing later runs. -/
theorem test_fault_on_loaded_address : edge (ref 0 0 [] 0 0 0 0 0 0x20) 0x181 (fun t =>
    reg t 1 .mar == some 0x20 && t.fault == some (.invalidMemoryAddress 32) && reg t 3 .whole == some 0 &&
      t.clk.phase == .high && t.reply == .subscriberFailure 2 (.invalidMemoryAddress 32)) := by
  decide
/-- T122: the old result is driven, `A` loads first, the new result is left. -/
theorem test_alu_latency : edge (ref 0 0 [] 5 3 8 0 0 0x10) 0x1400 (fun t =>
    reg t 2 .a == some 0x10 && t.dbus == 8#32 && reg t 2 .out == some 0x13) := by decide
/-- T120. -/
theorem test_aluBLoad : edge (ref 0 0 [] 0 0 0 0 0 0xFF) 0xC00 (fun t =>
    reg t 2 .a == some 0xFF && reg t 2 .b == some 0xFF && reg t 2 .out == some 0xFE) := by decide
/-- T105: the carry is lost. -/
theorem test_aluAdd_wraps : edge (ref 0 0 [] 0xFF 1 9 0 0 0) 0x0 (fun t => reg t 2 .out == some 0) := by decide
/-- T102. -/
theorem test_aluSub_wraps : edge (ref 0 0 [] 0 1 0 0 0 0) 0x2000 (fun t => reg t 2 .out == some 0xFF) := by decide
/-- T73: the counter drives before everyone in `REF`. -/
theorem test_counter_to_everyone : edge (ref 3 0 [] 0 0 0 0 0 0) 0x4C5 (fun t =>
    t.dbus == 3#32 && reg t 1 .mar == some 3 && reg t 2 .out == some 3 && reg t 4 .whole == some 3) := by decide

/-! ### The clock -/

/-- T30, whatever the control word. -/
theorem test_falling_changes_nothing : ok (exec .clkStep { sHigh with cbus := 0x3FFF#32 }) (fun t =>
    t == { sHigh with cbus := 0x3FFF#32, clk := { sHigh.clk with phase := .low } }) := by decide
/-- T21. -/
theorem test_start : ok (exec .clkStart s0) (fun t => t.clk.running && t.clk.phase == .low) := by decide
/-- T22: the phase is retained. -/
theorem test_stop : ok (exec .clkStop { sHigh with clk := { sHigh.clk with running := true } }) (fun t =>
    !t.clk.running && t.clk.phase == .high) := by decide
/-- T24. -/
theorem test_set_interval_clamps : [(-5, 2), (0, 2), (1, 2), (2, 2), (3, 3), (4999, 4999), (5000, 5000), (5001, 5000),
    (10000, 5000)].all (fun p => ok (exec (.clkSetInterval p.1) s0) (fun t => t.clk.interval == p.2)) := by decide
/-- T25. -/
theorem test_set_interval_restarts : ok (exec (.clkSetInterval 100) sRunning) (fun t => t.clk.running) := by decide
/-- T26, T27. -/
theorem test_cycle : ok (exec .clkCycle { sRunning with cbus := 0x20#32 }) (fun t =>
    t.clk.phase == .high && !t.clk.running && t.clk.cycleState == .pendingFall && cnt t == some 8) := by decide
/-- T28. -/
theorem test_cycle_from_high : refuses (exec .clkCycle sHigh) .cycleFromHigh := by decide
/-- T26. -/
theorem test_cycle_fall : ok (exec .clkCycleFall sPending) (fun t =>
    t.clk.phase == .low && t.clk.cycleState == .idle && t.reply == .cycleDone) := by decide
/-- T28. -/
theorem test_step_while_pending : refuses (exec .clkStep sPending) .cyclePending := by decide
/-- T21: a tick is not enabled before `start`. -/
theorem test_tick : ok (exec .clkTick sRunning) (fun t => t.clk.phase == .high) && refuses (exec .clkTick s0) .tickNotEnabled := by
  decide
/-- T31: the observer comes after all nine handlers. -/
theorem test_add_rising : ok (exec (.clkAddRising 7) s0) (fun t => t.clk.rising == Wiring.handlers Config.ref ++ [.observer 7]) := by
  decide
theorem test_add_falling_twice : ok (exec (.clkAddFalling 4) sWatched) (fun t => t.clk.falling == [4, 9, 4]) := by
  decide

/-! ### Buses -/

/-- T10, T11. -/
theorem test_busGet : [(8, Reply.bit true), (9, .bit false), (31, .bit false), (32, .noValue), (-1, .noValue)].all (fun p =>
    ok (exec (.busGet .dbus p.1) { s0 with dbus := 0x500#32 }) (fun t => t.reply == p.2)) := by decide
/-- R101's example, T13 and T17. -/
theorem test_busSet : [(9, some 1, 0x280#32), (7, none, 0#32), (7, some (-1), 0#32), (3, some 255, 0x88#32),
    (32, some 1, 0x80#32)].all (fun p =>
    ok (exec (.busSet .cbus p.1 p.2.1) { s0 with cbus := 0x80#32 }) (fun t => t.cbus == p.2.2)) := by decide
/-- T18. -/
theorem test_busAssign : ok (exec (.busAssign .dbus 0xFFFFFFFF) s0) (fun t => t.dbus == 0xFFFFFFFF#32) &&
    refuses (exec (.busAssign .dbus 0x100000000) s0) (.assignOutOfRange 0x100000000) := by decide
theorem test_busRead : ok (exec (.busRead .dbus) s0) (fun t => t.reply == .word 0x1AB#32) := by decide

/-! ### Components -/

/-- T48. -/
theorem test_regGet : [(0, Reply.bit true), (2, .bit false), (7, .bit true), (8, .noValue), (-1, .noValue)].all (fun p =>
    ok (exec (.regGet ⟨3, .whole⟩ p.1) s0) (fun t => t.reply == p.2)) := by decide
/-- T49, T94. -/
theorem test_regSet : ok (exec (.regSet ⟨3, .whole⟩ 2 none) s0) (fun t => reg t 3 .whole == some 0xAF) &&
    ok (exec (.regSet ⟨1, .mar⟩ 4 (some 1)) s0) (fun t => reg t 1 .mar == some 0x15 && t.fault == none) := by decide
/-- T75. -/
theorem test_cntGet : [(0, Reply.bit true), (1, .bit false), (4, .noValue)].all (fun p =>
    ok (exec (.cntGet 0 p.1) (ref 5 0 [] 0 0 0 0 0 0)) (fun t => t.reply == p.2)) := by decide
/-- T75. -/
theorem test_cntSet : ok (exec (.cntSet 0 1 (some 1)) (ref 5 0 [] 0 0 0 0 0 0)) (fun t => cnt t == some 7) := by decide
/-- T92: the index is checked first. -/
theorem test_memGet : ok (exec (.memGet 1 0) sBad) (fun t => t.fault == some (.invalidMemoryAddress 16)) &&
    ok (exec (.memGet 1 8) sBad) (fun t => t.fault == none && t.reply == .noValue) := by decide
/-- T93: writing zero leaves a canonical list. -/
theorem test_memSet : ok (exec (.memSet 1 1 (some 1)) (ref 0 2 [(2, 5)] 0 0 0 0 0 0)) (fun t => t.cellAt 1 2 == some 7) &&
    ok (exec (.memSet 1 0 (some 0)) (ref 0 2 [(2, 1)] 0 0 0 0 0 0)) (fun t => t == (ref 0 2 [] 0 0 0 0 0 0)) := by
  decide
/-- T125. -/
theorem test_aluGet : [(3, Reply.bit true), (0, .bit false), (8, .noValue)].all (fun p =>
    ok (exec (.aluGet 2 none p.1) s0) (fun t => t.reply == p.2)) := by decide
/-- T125: `OUT` does not follow before the next rising edge. -/
theorem test_aluSet : ok (exec (.aluSet 2 (some .a) 2 (some 1)) s0) (fun t => reg t 2 .a == some 7 && reg t 2 .out == some 8) &&
    refuses (exec (.aluSet 2 none 0 (some 1)) s0) .aluSetNamesNoRegister := by decide

/-! ### Gates: S1 and S2 -/

theorem test_and : [(false, false, false), (false, true, false), (true, false, false), (true, true, true)].all (fun p =>
    ok (exec (.gateAnd p.1 p.2.1) s0) (fun t => t.reply == .bit p.2.2)) := by decide
theorem test_or : [(false, false, false), (false, true, true), (true, false, true), (true, true, true)].all (fun p =>
    ok (exec (.gateOr p.1 p.2.1) s0) (fun t => t.reply == .bit p.2.2)) := by decide
theorem test_nand : [(false, false, true), (false, true, true), (true, false, true), (true, true, false)].all (fun p =>
    ok (exec (.gateNand p.1 p.2.1) s0) (fun t => t.reply == .bit p.2.2)) := by decide
theorem test_nor : [(false, false, true), (false, true, false), (true, false, false), (true, true, false)].all (fun p =>
    ok (exec (.gateNor p.1 p.2.1) s0) (fun t => t.reply == .bit p.2.2)) := by decide
theorem test_xor : [(false, false, false), (false, true, true), (true, false, true), (true, true, false)].all (fun p =>
    ok (exec (.gateXor p.1 p.2.1) s0) (fun t => t.reply == .bit p.2.2)) := by decide
theorem test_fullAdd : [(false, false, true, true, false), (true, false, true, false, true), (true, true, true, true, true)].all
    (fun p => ok (exec (.fullAdd p.1 p.2.1 p.2.2.1) s0) (fun t => t.reply == .sumCarry p.2.2.2.1 p.2.2.2.2)) := by
  decide

/-! ### Circuits other than `REF` -/

/-- What a plan builds, at the end of a rising edge under a word. -/
def built (plan : List BuildAction) (f : State → State) (p : State → Bool) : Bool :=
  match construct 2 plan with
  | .ok s => ok (exec .clkStep (f s)) p
  | .error _ => false

/-- T42, T45, T134: a width of 40 becomes 32; two registers on one line; a line that does not exist never loads. -/
theorem test_shared_and_inert_lines : built [ .register Refs.all 40 (some 0) none, .register Refs.all 8 (some 0) none,
    .register Refs.all 8 (some 40) none ] (fun s => { s with dbus := 0xFFFFFF5A#32, cbus := 1#32 }) (fun t =>
    reg t 0 .whole == some 0xFFFFFF5A && reg t 1 .whole == some 0x5A && reg t 2 .whole == some 0) := by decide
/-- T132: two memories, only the first one faults. -/
theorem test_two_memories : built [ .memory Refs.all 8 1 (some 0) (some 1) none, .memory Refs.all 8 2 (some 0) (some 1) none ]
    (fun s => { s with dbus := 9#32, cbus := 3#32 }) (fun t => t.fault == some (.invalidMemoryAddress 9) &&
      reg t 0 .mar == some 9 && reg t 1 .mar == some 0) := by decide

/-! ### A step -/

/-- A word runs as the first step after reset. -/
theorem test_first_step_from_reset : edge State.reset 0x20 (fun t => cnt t == some 1 && t.agenda == []) := by decide

/-! ### Witnesses: states and operands that meet the hypotheses of each statement, at the boundaries of its clauses -/

theorem test_witness_TwoInputGatesFollowTheirTables : s0.fault = none := by decide
theorem test_witness_FullAdderIsParityAndMajority : s0.fault = none := by decide
theorem test_witness_BusGetReadsOneLine :
    s0.fault = none ∧ inRange 0 32 ∧ inRange 31 32 ∧ ¬ inRange (-1) 32 ∧ ¬ inRange 32 32 := by decide
theorem test_witness_BusReadReturnsTheValue : s0.fault = none := by decide
theorem test_witness_BusSetChangesOneLine :
    s0.fault = none ∧ inRange 0 32 ∧ inRange 31 32 ∧ ¬ inRange (-1) 32 ∧ ¬ inRange 32 32 := by decide
theorem test_witness_BusAssignReplacesTheValue : s0.fault = none ∧ (0 : Int) ≤ 0 ∧ (0 : Int) ≤ 4294967295 ∧
    (4294967295 : Int) < 4294967296 ∧ (-1 : Int) < 0 ∧ (4294967296 : Int) ≤ 4294967296 := by decide
theorem test_witness_StepFromLowRaisesThePhase : s0.fault = none ∧ s0.clk.cycleState = .idle ∧ s0.clk.phase = .low := by decide
theorem test_witness_FallingStepChangesOnlyThePhase :
    sHigh.fault = none ∧ sHigh.clk.cycleState = .idle ∧ sHigh.clk.phase = .high := by decide
theorem test_witness_StartAndStopWriteRunning : sRunning.fault = none ∧ sRunning.clk.cycleState = .idle := by decide
theorem test_witness_SetIntervalClamps : s0.fault = none ∧ s0.clk.cycleState = .idle ∧ (1 : Int) < 2 ∧
    (5000 : Int) < 5001 ∧ (2 : Int) ≤ 2 ∧ (2 : Int) ≤ 5000 ∧ (5000 : Int) ≤ 5000 := by decide
theorem test_witness_CycleStopsThenSteps : s0.fault = none ∧ s0.clk.cycleState = .idle ∧ s0.clk.phase = .low ∧
    ok (exec .clkStep { s0 with clk := { s0.clk with running := false } }) (fun v => v.fault == none) ∧
    sBad.fault = none ∧ sBad.clk.cycleState = .idle ∧ sBad.clk.phase = .low ∧
    ok (exec .clkStep { sBad with cbus := 0x100#32, clk := { sBad.clk with running := false } })
      (fun v => v.fault != none) := by decide
theorem test_witness_CycleWhilePendingIsNoOp : sPending.fault = none ∧ sPending.clk.cycleState ≠ .idle := by decide
theorem test_witness_CycleFallEndsTheCycle :
    sPending.fault = none ∧ sPending.clk.cycleState = .pendingFall ∧ sPending.clk.phase = .high := by decide
theorem test_witness_TickIsAStepWhileRunning : sRunning.fault = none ∧ sRunning.clk.running = true ∧
    sRunning.clk.cycleState = .idle ∧ s0.fault = none ∧ s0.clk.running = false := by decide
theorem test_witness_ClockRefusesWhenTheSpecGivesNoMeaning : sPending.fault = none ∧ sPending.clk.cycleState ≠ .idle ∧
    sHigh.fault = none ∧ sHigh.clk.cycleState = .idle ∧ sHigh.clk.phase = .high ∧ sHigh.clk.cycleState ≠ .pendingFall := by
  decide
theorem test_witness_SubscriptionsAppend : sWatched.fault = none := by decide
theorem test_witness_ObserversAreToldInOrder : sWatched.fault = none ∧ sWatched.clk.cycleState = .idle ∧
    sWatched.clk.phase = .low ∧ sWatched.clk.rising = Wiring.handlers sWatched.wiring ++ [4, 9].map .observer ∧
    ok (exec .clkStep sWatched) (fun t => t.fault == none) := by decide
theorem test_witness_RegisterLoadTakesTheBus : s0.fault = none ∧ (∃ r, s0.comps[3]? = some (.register r)) ∧
    (∃ r, s0.comps[4]? = some (.register r)) ∧ (∃ m, s0.comps[1]? = some (.memory m)) ∧
    ∃ u, s0.comps[2]? = some (.alu u) := ⟨rfl, ⟨_, rfl⟩, ⟨_, rfl⟩, ⟨_, rfl⟩, ⟨_, rfl⟩⟩
theorem test_witness_RegisterDriveReplacesTheBus : s0.fault = none ∧ (∃ r, s0.comps[3]? = some (.register r)) ∧
    (∃ r, s0.comps[4]? = some (.register r)) ∧ ∃ u, s0.comps[2]? = some (.alu u) := ⟨rfl, ⟨_, rfl⟩, ⟨_, rfl⟩, ⟨_, rfl⟩⟩
theorem test_witness_RegGetReadsOneBit : s0.fault = none ∧ (∃ r, s0.reg? ⟨4, .whole⟩ = some r ∧ r.cfg.width = 4) ∧
    (∃ r, s0.reg? ⟨1, .mar⟩ = some r ∧ r.cfg.width = 8) ∧ inRange 0 4 ∧ inRange 3 4 ∧ ¬ inRange 4 4 ∧ ¬ inRange (-1) 4 :=
  ⟨rfl, ⟨_, rfl, rfl⟩, ⟨_, rfl, rfl⟩, by decide⟩
theorem test_witness_RegSetChangesOneBit : s0.fault = none ∧ (∃ r, s0.reg? ⟨4, .whole⟩ = some r ∧ r.cfg.width = 4) ∧
    (∃ r, s0.reg? ⟨2, .out⟩ = some r ∧ r.cfg.width = 8) ∧ inRange 0 4 ∧ inRange 3 4 ∧ ¬ inRange 4 4 ∧ ¬ inRange (-1) 4 :=
  ⟨rfl, ⟨_, rfl, rfl⟩, ⟨_, rfl, rfl⟩, by decide⟩
theorem test_witness_RegisterHandlerDrivesBeforeItLoads : ∃ r, s0.reg? ⟨3, .whole⟩ = some r ∧ r.cfg.width ≤ 32 ∧
    lineAsserted 3#32 r.cfg.driveIndex = true ∧ lineAsserted 3#32 r.cfg.loadIndex = true := ⟨_, rfl, by decide⟩
theorem test_witness_CounterLoadTakesTheBus : s0.fault = none ∧ ∃ c, s0.comps[0]? = some (.counter c) := ⟨rfl, _, rfl⟩
theorem test_witness_CounterIncrementAddsOne : s0.fault = none ∧ (∃ c, s0.comps[0]? = some (.counter c)) ∧
    ∃ c, (ref 15 0 [] 0 0 0 0 0 0).comps[0]? = some (.counter c) ∧ c.value.toNat = 2 ^ c.cfg.width - 1 :=
  ⟨rfl, ⟨_, rfl⟩, _, rfl, by decide⟩
theorem test_witness_CounterDriveReplacesTheBus : s0.fault = none ∧ ∃ c, s0.comps[0]? = some (.counter c) := ⟨rfl, _, rfl⟩
theorem test_witness_CounterHandlerComposesLeftToRight : ∃ c, s0.comps[0]? = some (.counter c) := ⟨_, rfl⟩
theorem test_witness_CounterAccessors : s0.fault = none ∧ (∃ c, s0.comps[0]? = some (.counter c) ∧ c.cfg.width = 4) ∧
    inRange 0 4 ∧ inRange 3 4 ∧ ¬ inRange 4 4 ∧ ¬ inRange (-1) 4 := ⟨rfl, ⟨_, rfl, rfl⟩, by decide⟩
theorem test_witness_MemWriteStoresOneCell : (ref 0 15 [(5, 1)] 0 0 0 0 0 0).fault = none ∧
    ∃ m, (ref 0 15 [(5, 1)] 0 0 0 0 0 0).comps[1]? = some (.memory m) ∧ m.wf ∧ m.mar.toNat < m.cfg.size :=
  ⟨rfl, _, rfl, by decide⟩
theorem test_witness_MemReadDrivesTheCell : (ref 0 15 [(5, 1)] 0 0 0 0 0 0).fault = none ∧
    ∃ m, (ref 0 15 [(5, 1)] 0 0 0 0 0 0).comps[1]? = some (.memory m) ∧ m.mar.toNat < m.cfg.size := ⟨rfl, _, rfl, by decide⟩
theorem test_witness_AddressWithoutCellFaults : sBad.fault = none ∧ ∃ m, sBad.comps[1]? = some (.memory m) ∧
    m.cfg.size ≤ m.mar.toNat ∧ inRange 0 m.cfg.width ∧ inRange 7 m.cfg.width := ⟨rfl, _, rfl, by decide⟩
theorem test_witness_CellHandlerWritesThenReads : s0.fault = none ∧
    (∃ m, s0.comps[1]? = some (.memory m) ∧ m.wf ∧ lineAsserted s0.cbus m.cfg.writeIndex = false ∧
      lineAsserted s0.cbus m.cfg.readIndex = false ∧ m.mar.toNat < m.cfg.size) ∧
    ∃ m, sBad.comps[1]? = some (.memory m) ∧ m.wf ∧ m.cfg.size ≤ m.mar.toNat ∧
      (lineAsserted 0x100#32 m.cfg.writeIndex || lineAsserted 0x100#32 m.cfg.readIndex) = true :=
  ⟨rfl, ⟨_, rfl, by decide⟩, _, rfl, by decide⟩
theorem test_witness_MemoryAccessors : s0.fault = none ∧ ∃ m, s0.comps[1]? = some (.memory m) ∧ m.wf ∧
    m.mar.toNat < m.cfg.size ∧ inRange 0 m.cfg.width ∧ inRange 7 m.cfg.width ∧ ¬ inRange 8 m.cfg.width ∧
    ¬ inRange (-1) m.cfg.width := ⟨rfl, _, rfl, by decide⟩
theorem test_witness_AluRecomputeAddsOrSubtracts : s0.fault = none ∧ ∃ u, s0.comps[2]? = some (.alu u) := ⟨rfl, _, rfl⟩
theorem test_witness_EveryRisingEdgeLeavesTheAluResult : sWatched.fault = none ∧ sWatched.clk.cycleState = .idle ∧
    sWatched.clk.phase = .low ∧ sWatched.clk.rising = Wiring.handlers sWatched.wiring ++ [4, 9].map .observer ∧
    ok (exec .clkStep sWatched) (fun t => t.fault == none && t.wiring[2]?.map CompCfg.kind == some .alu) := by decide
theorem test_witness_AluAccessors : s0.fault = none ∧ ∃ u, s0.comps[2]? = some (.alu u) ∧ inRange 0 u.cfg.width ∧
    inRange 7 u.cfg.width ∧ ¬ inRange 8 u.cfg.width ∧ ¬ inRange (-1) u.cfg.width := ⟨rfl, _, rfl, by decide⟩
theorem test_witness_RowIsSelectedByMaskAndMatch : Instr.micro? .aluAdd = some (.aluAdd 2) ∧
    Instr.micro? .regLoadR0 = some (.regLoad ⟨3, .whole⟩) := by decide
theorem test_witness_InertBitsDecodeToNothing : 0xFFFFC001#32 &&& wiringMask Config.ref = 1#32 &&& wiringMask Config.ref := by
  decide
theorem test_witness_StepPerformsTheNextTransaction :
    ({ s0 with agenda := [.clkStep] } : State).fault = none ∧ isTransaction .clkStep = true ∧ isTransaction .cntInc = false ∧
    sRunning.agenda = [] ∧ sRunning.clk.running = true ∧ sPending.agenda = [] ∧ sPending.clk.running = false ∧
    sPending.clk.cycleState = .pendingFall ∧ s0.agenda = [] ∧ s0.clk.running = false ∧ s0.clk.cycleState ≠ .pendingFall := by
  decide
theorem test_witness_RisingEdgePerformsTheDecodedWord :
    sWatched.fault = none ∧ sWatched.clk.cycleState = .idle ∧ sWatched.clk.phase = .low := by decide
theorem test_witness_StepExecutesTheFetchedWord : s0.fault = none ∧ s0.isRef := ⟨rfl, by decide, by decide⟩
theorem test_witness_FaultIsSticky : sFaulted.fault = some (.invalidMemoryAddress 16) := by decide
theorem test_witness_FaultAbortsTheEdge : sBad.fault = none ∧ sBad.isRef ∧ ∃ m, sBad.comps[1]? = some (.memory m) ∧
    16 ≤ m.mar.toNat := ⟨rfl, ⟨by decide, by decide⟩, _, rfl, by decide⟩
theorem test_witness_OnlyAMemoryCanFault : sBad.fault = none ∧ ∃ t f, exec .memRead sBad = .next t ∧ t.fault = some f :=
  ⟨rfl, _, _, rfl, rfl⟩
theorem test_witness_DriverBeforeLoader : s0.fault = none ∧ s0.isRef ∧
    s0.comps[3]? = some (.register { cfg := { width := 8, loadIndex := some 0, driveIndex := some 1 }, value := 0xAB#8 }) ∧
    s0.comps[4]? = some (.register { cfg := { width := 4, loadIndex := some 2, driveIndex := some 3 }, value := 0xB#4 }) ∧
    ∃ u, s0.comps[2]? = some (.alu u) := ⟨rfl, ⟨by decide, by decide⟩, rfl, rfl, _, rfl⟩
theorem test_witness_AluLatencyIsOneEdge : s0.fault = none ∧ s0.isRef ∧ ∃ u, s0.comps[2]? = some (.alu u) :=
  ⟨rfl, ⟨by decide, by decide⟩, _, rfl⟩
theorem test_witness_ConfigurationNeverChanges : ok (exec .clkStep s0) (fun _ => true) ∧ ok (step sRunning) (fun _ => true) := by
  decide
theorem test_witness_OnlyTheHostWritesTheControlBus : (∀ j v, Instr.clkStep ≠ .busSet .cbus j v) ∧
    (∀ v, Instr.busAssign .dbus 3 ≠ .busAssign .cbus v) ∧ ok (exec .clkStep s0) (fun _ => true) ∧
    ok (exec (.busAssign .dbus 3) s0) (fun _ => true) := ⟨by simp, by simp, by decide, by decide⟩
theorem test_witness_WellFormedInstructionsComplete : s0.fault = none ∧ Instr.wf s0.wiring.shape .memRead = true ∧
    Instr.wf s0.wiring.shape .clkStep = true ∧ sPending.fault = none ∧ Instr.wf sPending.wiring.shape .clkStep = true := by
  decide
theorem test_witness_MissingComponentsAreRefused : s0.fault = none ∧ s0.reg? ⟨0, .whole⟩ = none ∧ s0.reg? ⟨9, .whole⟩ = none ∧
    s0.counter? 1 = none ∧ s0.memory? 0 = none ∧ s0.alu? 5 = none := ⟨rfl, rfl, rfl, rfl, rfl, rfl⟩
theorem test_witness_ResetStateIsAsSpecified : (∃ r, State.reset.reg? ⟨2, .out⟩ = some r) ∧
    (∃ c, State.reset.counter? 0 = some c) ∧ ∃ m, State.reset.memory? 1 = some m := ⟨⟨_, rfl⟩, ⟨_, rfl⟩, _, rfl⟩
theorem test_witness_EveryStepKeepsTheInvariant : sRunning.Inv ∧ ok (step sRunning) (fun _ => true) := by
  refine ⟨⟨?_, by decide, by decide, by decide, by decide⟩, by decide⟩
  intro c hc
  have hc : c ∈ s0.comps := hc
  simp only [s0, ref, List.mem_cons, List.not_mem_nil, or_false] at hc
  rcases hc with rfl | rfl | rfl | rfl | rfl <;> refine ⟨by decide, ?_⟩ <;> intro m hm <;> cases hm
  decide
/-- `REF` with observers on both lists, at both bounds of the interval. -/
theorem test_witness_ConstructionYieldsAnInvariantState :
    (∃ s, construct 2 (refPlan ++ [.addRising 7, .addFalling 8]) = .ok s ∧ (∃ r, s.reg? ⟨2, .out⟩ = some r) ∧
      (∃ c, s.counter? 0 = some c) ∧ ∃ m, s.memory? 1 = some m) ∧
    ∃ s, construct 5000 refPlan = .ok s := ⟨⟨_, rfl, ⟨_, rfl⟩, ⟨_, rfl⟩, _, rfl⟩, _, rfl⟩
/-- Good parameters at their lowest values, and one that is bad for each of them. -/
theorem test_witness_ConstructorsRefuseAndClamp : (1 : Int) ≤ 1 ∧ lineOk none ∧ lineOk (some 0) ∧ ¬ lineOk (some (-1)) ∧
    (∃ i : Int, (some 31 : Option Int) = some i ∧ 0 ≤ i ∧ i < 32) ∧ ¬ (1 : Int) ≤ 0 ∧ ¬ (0 : Int) ≤ -1 ∧
    ¬ (32 : Int) < 32 ∧ Refs.mk false true true ≠ Refs.all ∧ (32 : Nat) ≤ 32 := by
  refine ⟨by decide, fun _ h => (by cases h), fun _ h => (by cases h; decide), fun h => absurd (h _ rfl) (by decide),
    ⟨31, rfl, by decide, by decide⟩, by decide, by decide, by decide, by decide, by decide⟩

end Sys2Proof.Tests
end

section
/-! Proofs for 40_gates.md: the truth tables as Boolean operations, what a gate call does, and the two obligations. -/

namespace Sys2Proof.Machine

open Sys2Proof

/-! ### The truth tables as Boolean operations (R91 to R96); `xorGate_eq` stands in Laws/Ripple -/

theorem andGate_eq (a b : Bit) : andGate a b = (a && b) := by
  cases a <;> cases b <;> rfl

theorem orGate_eq (a b : Bit) : orGate a b = (a || b) := by
  cases a <;> cases b <;> rfl

theorem nandGate_eq_not_andGate (a b : Bit) : nandGate a b = !andGate a b := by
  cases a <;> cases b <;> rfl

theorem norGate_eq_not_orGate (a b : Bit) : norGate a b = !orGate a b := by
  cases a <;> cases b <;> rfl

/-- The sum is the parity of the three inputs and the carry their majority (R96). -/
theorem fulladd_eq (cin a b : Bit) : fulladd cin a b = (a ^^ b ^^ cin, Bool.atLeastTwo a b cin) :=
  Prod.ext ((fulladd_sum cin a b).trans (Bool.xor_assoc a b cin).symm) (fulladd_carry cin a b)

/-- The two results are the binary digits of the number of inputs that are 1. -/
theorem two_mul_atLeastTwo_add_parity (cin a b : Bit) :
    2 * (Bool.atLeastTwo a b cin).toNat + (a ^^ b ^^ cin).toNat = a.toNat + b.toNat + cin.toNat := by
  cases cin <;> cases a <;> cases b <;> rfl

theorem fulladd_swap_left (cin a b : Bit) : fulladd cin a b = fulladd a cin b := by
  cases cin <;> cases a <;> cases b <;> rfl

theorem fulladd_swap_right (cin a b : Bit) : fulladd cin a b = fulladd cin b a := by
  cases cin <;> cases a <;> cases b <;> rfl

/-- The exchange of the outer arguments is three exchanges of neighbours, with no further look at the table. -/
theorem fulladd_swap_outer (cin a b : Bit) : fulladd cin a b = fulladd b a cin :=
  calc fulladd cin a b = fulladd a cin b := fulladd_swap_left cin a b
    _ = fulladd a b cin := fulladd_swap_right a cin b
    _ = fulladd b a cin := fulladd_swap_left a b cin

/-! ### A gate call only answers (R90) -/

section
variable {s : State} (h : s.fault = none) (cin a b : Bit)
include h

theorem exec_gateAnd : exec (.gateAnd a b) s = .next (s.answer (.bit (a && b))) := by
  rw [← andGate_eq]
  exact live_of_none h _

theorem exec_gateOr : exec (.gateOr a b) s = .next (s.answer (.bit (a || b))) := by
  rw [← orGate_eq]
  exact live_of_none h _

theorem exec_gateNand : exec (.gateNand a b) s = .next (s.answer (.bit (!(a && b)))) := by
  rw [← andGate_eq, ← nandGate_eq_not_andGate]
  exact live_of_none h _

theorem exec_gateNor : exec (.gateNor a b) s = .next (s.answer (.bit (!(a || b)))) := by
  rw [← orGate_eq, ← norGate_eq_not_orGate]
  exact live_of_none h _

theorem exec_gateXor : exec (.gateXor a b) s = .next (s.answer (.bit (a ^^ b))) := by
  rw [← xorGate_eq]
  exact live_of_none h _

theorem exec_fullAdd :
    exec (.fullAdd cin a b) s = .next (s.answer (.sumCarry (a ^^ b ^^ cin) (Bool.atLeastTwo a b cin))) := by
  have hcall : exec (.fullAdd cin a b) s = .next (s.answer (.sumCarry (fulladd cin a b).1 (fulladd cin a b).2)) :=
    live_of_none h _
  rw [hcall, fulladd_eq]

end

/-! ### The obligations -/

/-- Settles O1: each call answers with its gate's value, and each table is its Boolean operation. -/
theorem twoInputGatesFollowTheirTables : Obligations.TwoInputGatesFollowTheirTables := fun a b _ h =>
  ⟨exec_gateAnd h a b, exec_gateOr h a b, exec_gateNand h a b, exec_gateNor h a b, exec_gateXor h a b⟩

/-- Settles O2: the call answers with parity and majority, which are the digits of the count, and the table is fixed by
both exchanges of neighbouring arguments. -/
theorem fullAdderIsParityAndMajority : Obligations.FullAdderIsParityAndMajority := fun cin a b =>
  ⟨fun _ h => exec_fullAdd h cin a b, two_mul_atLeastTwo_add_parity cin a b, fulladd_eq cin a b,
    fulladd_swap_left cin a b, fulladd_swap_right cin a b, fulladd_swap_outer cin a b⟩

end Sys2Proof.Machine
end

section
/-! Proofs for 41_bus.md: what `BUS.READ` does on either bus, and the obligation. -/

namespace Sys2Proof.Machine

open Sys2Proof

/-- The whole value of the named bus, and no state changes (R103). -/
theorem exec_busRead {s : State} (h : s.fault = none) (b : BusId) :
    exec (.busRead b) s = .next (s.answer (.word (s.bus b))) :=
  live_of_none h _

theorem encode_busRead (b : BusId) : encode (.busRead b) = none := rfl

/-- Settles O5: the rule of `BUS.READ` at each bus. -/
theorem busReadReturnsTheValue : Obligations.BusReadReturnsTheValue := fun _ h =>
  ⟨exec_busRead h .dbus, exec_busRead h .cbus, encode_busRead .dbus, encode_busRead .cbus⟩

end Sys2Proof.Machine
end

section
/-! Proofs for 43_register.md: what a row that loads or drives a register does, the zero-extension above a register's width,
`REG.GET`, and the obligations. -/

namespace Sys2Proof.Machine

open Sys2Proof

/-! ### The rows that stand for `REG.LOAD` and `REG.DRIVE` (R132, R133, R151, R161 to R163) -/

/-- A meaning that acts on a register the circuit has, in a state without a fault. -/
theorem onReg_of_reg? {s : State} {r : RegRef} {reg : Register} (h : s.fault = none) (hr : s.reg? r = some reg)
    (k : Register → Host.Outcome State Fault Refusal) : onReg s r k = k reg := by
  rw [onReg, live_of_none h, hr]

/-- Five rows stand for `REG.LOAD`, free-standing or embedded, and they have one meaning. -/
theorem exec_eq_onReg_loadReg {i : Instr} {r : RegRef} (hi : i.micro? = some (.regLoad r)) (s : State) :
    exec i s = onReg s r fun _ => .next (s.loadReg r) := by
  cases i with
  | regLoadR0 => cases hi; rfl
  | regLoadR1 => cases hi; rfl
  | memAddrLoad => cases hi; rfl
  | aluALoad => cases hi; rfl
  | aluBLoad => cases hi; rfl
  | _ => cases hi

/-- Three rows stand for `REG.DRIVE`, free-standing or embedded, and they have one meaning. -/
theorem exec_eq_onReg_driveReg {i : Instr} {r : RegRef} (hi : i.micro? = some (.regDrive r)) (s : State) :
    exec i s = onReg s r fun _ => .next (s.driveReg r) := by
  cases i with
  | regDriveR0 => cases hi; rfl
  | regDriveR1 => cases hi; rfl
  | aluOutDrive => cases hi; rfl
  | _ => cases hi

section
variable {i : Instr} {k : Nat} {p : RegPart} {s : State} {c : Component} {reg : Register}

/-- A load replaces the register by the low lines of the data bus, and nothing else (R133). -/
theorem exec_of_regLoad (hi : i.micro? = some (.regLoad ⟨k, p⟩)) (h : s.fault = none) (hc : s.comps[k]? = some c)
    (hr : c.reg? p = some reg) : exec i s = .next (s.setComp k (c.updateReg (fun w _ => fromBus w s.dbus) p)) := by
  rw [exec_eq_onReg_loadReg hi, onReg_of_reg? h (State.reg?_of_comp hc hr), State.loadReg_eq hc]

/-- A drive replaces the data bus by the zero-extended value, and nothing else (R132). -/
theorem exec_of_regDrive (hi : i.micro? = some (.regDrive ⟨k, p⟩)) (h : s.fault = none) (hc : s.comps[k]? = some c)
    (hr : c.reg? p = some reg) : exec i s = .next (s.setDbus (toBus reg.value)) := by
  have hreg := State.reg?_of_comp hc hr
  rw [exec_eq_onReg_driveReg hi, onReg_of_reg? h hreg, State.driveReg_eq hreg]

end

/-- The lines from the width up carry 0 (R132). -/
theorem getLsbD_toBus_of_le {w j : Nat} (v : BitVec w) (hj : w ≤ j) : (toBus v).getLsbD j = false := by
  rw [getLsbD_toBus, BitVec.getLsbD_of_ge v j hj, Bool.and_false]

/-! ### `REG.GET` (R135) -/

theorem getBit_of_inRange {w : Nat} {i : Int} (v : BitVec w) (h : inRange i w) : getBit v i = some (v.getLsbD i.toNat) := by
  rw [getBit, bitIndex?_of_inRange h, Option.map_some]

theorem getBit_of_not_inRange {w : Nat} {i : Int} (v : BitVec w) (h : ¬ inRange i w) : getBit v i = none := by
  rw [getBit, bitIndex?_of_not_inRange h, Option.map_none]

/-- An embedded register is as wide as its component (R32, R33), whose width the host can read (R172). -/
theorem State.width?_of_reg? {s : State} {r : RegRef} {reg : Register} (h : s.reg? r = some reg) :
    s.width? r.comp = some reg.cfg.width := by
  obtain ⟨c, hc, hr⟩ := State.reg?_eq_some.1 h
  rw [State.width?, hc, Option.map_some, Component.reg?_width hr]

section
variable {s : State} {r : RegRef} {reg : Register} {i : Int} (h : s.fault = none) (hr : s.reg? r = some reg)
include h hr

theorem exec_regGet : exec (.regGet r i) s = .next (s.answer (replyOfBit (getBit reg.value i))) :=
  onReg_of_reg? h hr _

theorem exec_regGet_of_inRange (hi : inRange i reg.cfg.width) :
    exec (.regGet r i) s = .next (s.answer (.bit (reg.value.getLsbD i.toNat))) := by
  rw [exec_regGet h hr, getBit_of_inRange _ hi, replyOfBit]

theorem exec_regGet_of_not_inRange (hi : ¬ inRange i reg.cfg.width) :
    exec (.regGet r i) s = .next (s.answer .noValue) := by
  rw [exec_regGet h hr, getBit_of_not_inRange _ hi, replyOfBit]

end

/-! ### The obligations -/

/-- Settles O19: each of the five rows stands for a load of its register; the words are `REF`'s. -/
theorem registerLoadTakesTheBus : Obligations.RegisterLoadTakesTheBus := fun _ h =>
  ⟨fun _ hc => exec_of_regLoad (i := .regLoadR0) rfl h hc rfl,
    fun _ hc => exec_of_regLoad (i := .regLoadR1) rfl h hc rfl,
    fun _ hc => exec_of_regLoad (i := .memAddrLoad) rfl h hc rfl,
    fun _ hc => exec_of_regLoad (i := .aluALoad) rfl h hc rfl,
    fun _ hc => exec_of_regLoad (i := .aluBLoad) rfl h hc rfl,
    by decide⟩

/-- Settles O20: each of the three rows stands for a drive of its register, whose value has no line from its width up; the
words are `REF`'s. -/
theorem registerDriveReplacesTheBus : Obligations.RegisterDriveReplacesTheBus := fun _ h =>
  ⟨fun r hc => ⟨exec_of_regDrive (i := .regDriveR0) rfl h hc rfl, fun _ => getLsbD_toBus_of_le r.value⟩,
    fun r hc => ⟨exec_of_regDrive (i := .regDriveR1) rfl h hc rfl, fun _ => getLsbD_toBus_of_le r.value⟩,
    fun u hc => ⟨exec_of_regDrive (i := .aluOutDrive) rfl h hc rfl, fun _ => getLsbD_toBus_of_le u.out⟩, by decide⟩

/-- Settles O21: the register's width is its component's, and `REG.GET` replies by whether the index is below it. -/
theorem regGetReadsOneBit : Obligations.RegGetReadsOneBit := fun _ _ _ _ h hr =>
  ⟨State.width?_of_reg? hr, exec_regGet_of_inRange h hr, exec_regGet_of_not_inRange h hr, rfl⟩

end Sys2Proof.Machine
end

section
/-! Proofs for 44_counter.md: a meaning that acts on a Counter the circuit has, what `CNT.LOAD` does, and the obligation. -/

namespace Sys2Proof.Machine

open Sys2Proof

/-- A meaning that acts on a Counter the circuit has, in a state without a fault. -/
theorem onCounter_of_counter? {s : State} {k : Nat} {c : Counter} (h : s.fault = none) (hc : s.counter? k = some c)
    (act : Counter → Host.Outcome State Fault Refusal) : onCounter s k act = act c := by
  rw [onCounter, live_of_none h, hc]

/-- A load replaces the Counter's value by the low lines of the data bus, and nothing else (R142). -/
theorem exec_cntLoad {s : State} {c : Counter} (h : s.fault = none) (hc : s.counter? Config.refCnt = some c) :
    exec .cntLoad s =
      .next (s.setComp Config.refCnt (.counter { c with value := fromBus c.cfg.width s.dbus })) := by
  rw [← State.loadCounter_eq hc]
  exact onCounter_of_counter? h hc _

theorem encode_cntLoad : encode .cntLoad = some 0x10#32 := by
  decide

/-- Settles O24: the rule of `CNT.LOAD` at the Counter of place 0; the word is `REF`'s. -/
theorem counterLoadTakesTheBus : Obligations.CounterLoadTakesTheBus := fun _ _ h hc =>
  ⟨exec_cntLoad h (State.counter?_eq_some.2 hc), encode_cntLoad⟩

end Sys2Proof.Machine
end

section
/-! Proofs for 46_alu.md: the difference of two words as numbers, what `ALU.ADD` and `ALU.SUB` do, and the obligation. -/

namespace Sys2Proof.Machine

open Sys2Proof

/-! ### The difference of two words (R166) -/

/-- Subtraction is addition of the bitwise complement with a carry-in of 1. -/
theorem toNat_sub_eq_add_complement_add_one {w : Nat} (a b : BitVec w) :
    (a - b).toNat = (a.toNat + (2 ^ w - 1 - b.toNat) + 1) % 2 ^ w := by
  have hb : b.toNat < 2 ^ w := b.isLt
  have hsum : 2 ^ w - b.toNat + a.toNat = a.toNat + (2 ^ w - 1 - b.toNat) + 1 := by omega
  rw [BitVec.toNat_sub, hsum]

/-- Subtraction wraps: the result is the signed difference modulo `2 ^ w`. -/
theorem intCast_toNat_sub {w : Nat} (a b : BitVec w) :
    ((a - b).toNat : Int) = ((a.toNat : Int) - b.toNat) % (2 ^ w : Nat) := by
  have hb : b.toNat ≤ 2 ^ w := b.isLt.le
  calc ((a - b).toNat : Int)
    _ = ((2 ^ w : Nat) - (b.toNat : Int) + a.toNat) % (2 ^ w : Nat) := by
      rw [BitVec.toNat_sub, Int.natCast_mod, Int.natCast_add, Int.natCast_sub hb]
    _ = (((a.toNat : Int) - b.toNat) + (2 ^ w : Nat)) % (2 ^ w : Nat) := by
      congr 1
      omega
    _ = ((a.toNat : Int) - b.toNat) % (2 ^ w : Nat) := Int.add_emod_right ..

/-! ### The two rows of the recompute (R165 to R167) -/

/-- A meaning that acts on an ALU the circuit has, in a state without a fault. -/
theorem onAlu_of_alu? {s : State} {k : Nat} {u : Alu} (h : s.fault = none) (hu : s.alu? k = some u)
    (act : Alu → Host.Outcome State Fault Refusal) : onAlu s k act = act u := by
  rw [onAlu, live_of_none h, hu]

section
variable {s : State} {u : Alu} (h : s.fault = none) (hu : s.alu? Config.refAlu = some u)
include h hu

/-- `ALU.ADD` replaces `OUT` by the sum, and nothing else. -/
theorem exec_aluAdd : exec .aluAdd s = .next (s.setComp Config.refAlu (.alu { u with out := u.a + u.b })) := by
  have hrow : exec .aluAdd s = .next (s.recompute Config.refAlu false) := onAlu_of_alu? h hu _
  rw [hrow, State.recompute_eq hu, if_neg Bool.false_ne_true]

/-- `ALU.SUB` replaces `OUT` by the difference, and nothing else. -/
theorem exec_aluSub : exec .aluSub s = .next (s.setComp Config.refAlu (.alu { u with out := u.a - u.b })) := by
  have hrow : exec .aluSub s = .next (s.recompute Config.refAlu true) := onAlu_of_alu? h hu _
  rw [hrow, State.recompute_eq hu, if_pos rfl]

end

theorem encode_aluAdd : encode .aluAdd = some 0#32 := by
  decide

theorem encode_aluSub : encode .aluSub = some 0x2000#32 := by
  decide

/-! ### The obligation -/

/-- Settles O34: the two results are the sum and the difference of `A` and `B`, read as numbers; the words are `REF`'s. -/
theorem aluRecomputeAddsOrSubtracts : Obligations.AluRecomputeAddsOrSubtracts := fun _ u h hc =>
  have hu := State.alu?_eq_some.2 hc
  ⟨u.a + u.b, u.a - u.b, exec_aluAdd h hu, exec_aluSub h hu, BitVec.toNat_add u.a u.b,
    toNat_sub_eq_add_complement_add_one u.a u.b, intCast_toNat_sub u.a u.b, encode_aluAdd, encode_aluSub⟩

end Sys2Proof.Machine
end

section
/-! Proofs for 30_encoding.md: a wiring's subscribers component by component, the round trip of a control word, the lines
that matter to the decoder, and the rows of `REF`. -/

namespace Sys2Proof.Machine

open Sys2Proof

/-! ### The subscribers of a wiring, each component with its place -/

theorem handlersFrom_eq_flatMap_zipIdx (k : Nat) (wir : Wiring) :
    Wiring.handlersFrom k wir = (wir.zipIdx k).flatMap fun p => p.1.handlers p.2 := by
  induction wir generalizing k with
  | nil => rfl
  | cons c wir ih => rw [Wiring.handlersFrom, ih, List.zipIdx_cons, List.flatMap_cons]

/-- The decoder works component by component. -/
theorem decode_handlers_eq_flatMap_zipIdx (wir : Wiring) (w : Word) : decode wir (Wiring.handlers wir) w =
    wir.zipIdx.flatMap fun p => decode wir (p.1.handlers p.2) w := by
  rw [Wiring.handlers, handlersFrom_eq_flatMap_zipIdx, decode, List.flatMap_assoc]
  rfl

theorem wiringMask_eq_foldr_zipIdx (wir : Wiring) (k : Nat) :
    wiringMask wir = (wir.zipIdx k).foldr (fun p m => lineMasks p.1 ||| m) 0#32 := by
  induction wir generalizing k with
  | nil => rfl
  | cons c wir ih => rw [List.zipIdx_cons, List.foldr_cons, ← ih]; rfl

@[simp] theorem gated_none (w : Word) (m : Micro) : gated w none m = [] := rfl

/-! ### The round trip (R70, R73) -/

theorem and_or_and_eq_and_or (w a b : Word) : w &&& a ||| w &&& b = w &&& (a ||| b) := by
  ext i
  simp only [BitVec.getElem_or, BitVec.getElem_and, Bool.and_or_distrib_left]

theorem encodeAll_recompute {wir : Wiring} {k : Nat} {c : AluCfg} (h : wir[k]? = some (.alu c)) (w : Word) :
    encodeAll wir [if w.getLsbD c.subIndex then .aluSub k else .aluAdd k] = w &&& lineMask (some c.subIndex) := by
  have hsub : Micro.encode wir (.aluSub k) = lineMask (some c.subIndex) := by simp only [Micro.encode, Micro.line, h]
  have hadd : Micro.encode wir (.aluAdd k) = 0#32 := rfl
  rw [and_lineMask, lineAsserted, Config.busLines]
  rcases Bool.eq_false_or_eq_true (w.getLsbD c.subIndex) with hb | hb
  · have hp : c.subIndex < 32 := BitVec.lt_of_getLsbD hb
    simp [encodeAll, hb, hp, hsub]
  · simp [encodeAll, hb, hadd]

/-- The micro-operations of one component's subscribers encode to the lines that the component listens to. -/
theorem encodeAll_decode_compHandlers {wir : Wiring} {k : Nat} {c : CompCfg} (h : wir[k]? = some c) (w : Word) :
    encodeAll wir (decode wir (c.handlers k) w) = w &&& lineMasks c := by
  cases c with
  | register c =>
    simp [CompCfg.handlers, decode, Subscriber.select, h, CompCfg.regCfg?, encodeAll_append, encodeAll_gated, Micro.encode,
      Micro.line, lineMasks, and_or_and_eq_and_or, BitVec.or_comm]
  | counter c =>
    simp [CompCfg.handlers, decode, Subscriber.select, h, encodeAll_append, encodeAll_gated, Micro.encode,
      Micro.line, lineMasks, and_or_and_eq_and_or, BitVec.or_assoc]
  | memory c =>
    simp [CompCfg.handlers, decode, Subscriber.select, h, CompCfg.regCfg?, encodeAll_append, encodeAll_gated, Micro.encode,
      Micro.line, lineMasks, and_or_and_eq_and_or, BitVec.or_assoc, BitVec.or_comm]
  | alu c =>
    simp [CompCfg.handlers, decode, Subscriber.select, h, CompCfg.regCfg?, encodeAll_append, encodeAll_gated, Micro.encode,
      Micro.line, lineMasks, and_or_and_eq_and_or, encodeAll_recompute h, BitVec.or_assoc]

theorem encodeAll_flatMap {wir : Wiring} {w : Word} {l : List (CompCfg × Nat)}
    (h : ∀ p ∈ l, wir[p.2]? = some p.1) :
    encodeAll wir (l.flatMap fun p => decode wir (p.1.handlers p.2) w) =
      w &&& l.foldr (fun p m => lineMasks p.1 ||| m) 0#32 := by
  induction l with
  | nil => simp [encodeAll]
  | cons p l ih =>
    rw [List.flatMap_cons, encodeAll_append, encodeAll_decode_compHandlers (h p List.mem_cons_self),
      ih fun q hq => h q (List.mem_cons_of_mem _ hq), List.foldr_cons, and_or_and_eq_and_or]

theorem getElem?_of_mem_zipIdx {wir : Wiring} {p : CompCfg × Nat} (h : p ∈ wir.zipIdx) : wir[p.2]? = some p.1 :=
  List.mem_zipIdx_iff_getElem?.1 h

/-- Settles O39: each component gives back its own lines of the word, for every component in its place. -/
theorem controlWordRoundTrip : Obligations.ControlWordRoundTrip :=
  ⟨fun wir w => by
    rw [decode_handlers_eq_flatMap_zipIdx, encodeAll_flatMap fun p => getElem?_of_mem_zipIdx,
      wiringMask_eq_foldr_zipIdx wir 0], by decide⟩

/-! ### The lines that matter (R75) -/

theorem and_or_and_self (w a b : Word) : w &&& (a ||| b) &&& a = w &&& a := by
  ext i
  simp only [BitVec.getElem_and, BitVec.getElem_or]
  cases w[i] <;> cases a[i] <;> simp

/-- Two words agree on a union of lines exactly when they agree on each part. -/
theorem and_or_eq_and_or_iff (v w a b : Word) :
    v &&& (a ||| b) = w &&& (a ||| b) ↔ v &&& a = w &&& a ∧ v &&& b = w &&& b := by
  constructor
  · intro h
    constructor
    · rw [← and_or_and_self v a b, h, and_or_and_self]
    · rw [← and_or_and_self v b a, BitVec.or_comm, h, BitVec.or_comm, and_or_and_self]
  · rintro ⟨ha, hb⟩
    rw [← and_or_and_eq_and_or, ha, hb, and_or_and_eq_and_or]

theorem and_lineMasks_eq_of_mem {wir : Wiring} {v w : Word} (h : v &&& wiringMask wir = w &&& wiringMask wir)
    {c : CompCfg} (hc : c ∈ wir) : v &&& lineMasks c = w &&& lineMasks c := by
  induction wir with
  | nil => cases hc
  | cons d wir ih =>
    obtain ⟨hd, hwir⟩ := (and_or_eq_and_or_iff v w (lineMasks d) (wiringMask wir)).1 h
    rcases List.mem_cons.1 hc with rfl | hc
    · exact hd
    · exact ih hwir hc

theorem lineAsserted_eq_of_and_eq {v w : Word} {l : Line} (h : v &&& lineMask l = w &&& lineMask l) :
    lineAsserted v l = lineAsserted w l :=
  lineAsserted_congr v w (lineMask l) l h (BitVec.and_self ..)

theorem gated_eq_of_and_eq {v w : Word} {l : Line} (h : v &&& lineMask l = w &&& lineMask l) (m : Micro) :
    gated v l m = gated w l m := by
  rw [gated, gated, lineAsserted_eq_of_and_eq h]

theorem getLsbD_eq_lineAsserted (w : Word) (p : Nat) : w.getLsbD p = lineAsserted w (some p) := by
  by_cases hp : p < 32
  · simp [lineAsserted, Config.busLines, hp]
  · simp [lineAsserted, Config.busLines, hp, BitVec.getLsbD_of_ge w p (by omega)]

/-- The decoding of a component's subscribers depends on the lines that the component listens to, and on no other. -/
theorem decode_compHandlers_congr {c : CompCfg} {v w : Word} (h : v &&& lineMasks c = w &&& lineMasks c) {wir : Wiring}
    {k : Nat} (hk : wir[k]? = some c) : decode wir (c.handlers k) v = decode wir (c.handlers k) w := by
  cases c with
  | register c =>
    simp only [lineMasks, and_or_eq_and_or_iff] at h
    obtain ⟨hload, hdrive⟩ := h
    simp [CompCfg.handlers, decode, Subscriber.select, hk, CompCfg.regCfg?, gated_eq_of_and_eq hload,
      gated_eq_of_and_eq hdrive]
  | counter c =>
    simp only [lineMasks, and_or_eq_and_or_iff] at h
    obtain ⟨⟨hload, hinc⟩, hdrive⟩ := h
    simp [CompCfg.handlers, decode, Subscriber.select, hk, gated_eq_of_and_eq hload, gated_eq_of_and_eq hinc,
      gated_eq_of_and_eq hdrive]
  | memory c =>
    simp only [lineMasks, and_or_eq_and_or_iff] at h
    obtain ⟨⟨hload, hread⟩, hwrite⟩ := h
    simp [CompCfg.handlers, decode, Subscriber.select, hk, CompCfg.regCfg?, gated_eq_of_and_eq hload,
      gated_eq_of_and_eq hread, gated_eq_of_and_eq hwrite]
  | alu c =>
    simp only [lineMasks, and_or_eq_and_or_iff] at h
    obtain ⟨⟨⟨ha, hb⟩, hdrive⟩, hsub⟩ := h
    simp [CompCfg.handlers, decode, Subscriber.select, hk, CompCfg.regCfg?, gated_eq_of_and_eq ha, gated_eq_of_and_eq hb,
      gated_eq_of_and_eq hdrive, getLsbD_eq_lineAsserted, lineAsserted_eq_of_and_eq hsub]

/-- Settles O40: the words agree on the lines of each component, so each component's subscribers decode them alike. -/
theorem inertBitsDecodeToNothing : Obligations.InertBitsDecodeToNothing := by
  intro wir v w h
  rw [decode_handlers_eq_flatMap_zipIdx, decode_handlers_eq_flatMap_zipIdx]
  refine List.flatMap_congr fun p hp => ?_
  have hk := getElem?_of_mem_zipIdx hp
  exact decode_compHandlers_congr (and_lineMasks_eq_of_mem h (List.mem_of_getElem? hk)) hk

/-! ### The rows of `REF` (R73, R78) -/

theorem mem_gated {w : Word} {l : Line} {m n : Micro} : n ∈ gated w l m ↔ lineAsserted w l = true ∧ n = m := by
  cases h : lineAsserted w l <;> simp [gated, h]

/-- A row and the micro-operation that it stands for name each other. -/
theorem row?_eq_some_iff {m : Micro} {i : Instr} : m.row? = some i ↔ i.micro? = some m := by
  refine ⟨Micro.row?_micro?, fun h => ?_⟩
  cases i <;> cases h <;> rfl

theorem mem_decodeRef {w : Word} {i : Instr} {m : Micro} (h : i.micro? = some m) :
    i ∈ decodeRef w ↔ m ∈ decode Config.ref (Wiring.handlers Config.ref) w := by
  simp only [decodeRef, List.mem_filterMap, row?_eq_some_iff]
  constructor
  · rintro ⟨n, hn, hi⟩
    rw [h] at hi
    cases hi
    exact hn
  · exact fun hm => ⟨m, hm, h⟩

/-- In `REF` a micro-operation is selected exactly when the masked word is its match: for a gated row that its line is 1, for
`ALU.ADD` that the subtract line is 0. -/
theorem mem_decode_ref_iff {i : Instr} {m : Micro} (h : i.micro? = some m) (w : Word) :
    m ∈ decode Config.ref (Wiring.handlers Config.ref) w ↔ w &&& lineMask (m.line Config.ref) = m.encode Config.ref := by
  rw [decode_ref]
  cases i with
  | aluAdd =>
    cases h
    rw [show Micro.encode Config.ref (.aluAdd 2) = 0#32 from rfl,
      show Micro.line Config.ref (.aluAdd 2) = some 13 from rfl, and_lineMask_eq_zero w (by decide)]
    cases hb : w.getLsbD 13 <;> simp [mem_gated]
  | aluSub =>
    cases h
    rw [show Micro.encode Config.ref (.aluSub 2) = lineMask (some 13) from rfl,
      show Micro.line Config.ref (.aluSub 2) = some 13 from rfl, and_lineMask_eq_self w (by decide)]
    cases hb : w.getLsbD 13 <;> simp [mem_gated]
  | _ =>
    cases h <;> simp [mem_gated, Micro.encode, Micro.line, Config.ref, CompCfg.regCfg?, and_lineMask_eq_self,
      lineAsserted, Config.busLines, eq_ite_iff]

/-- Settles O38: a row is in the decoding exactly when its micro-operation is, and that is mask and match. -/
theorem rowIsSelectedByMaskAndMatch : Obligations.RowIsSelectedByMaskAndMatch := by
  intro w i m h
  rw [mem_decodeRef h, mem_decode_ref_iff h, encode, h, Option.map_some, Option.some.injEq]

/-- Settles O37: the fifteen words and the word of another length are evaluated. -/
theorem tableWordsDecode : Obligations.TableWordsDecode := by
  unfold Obligations.TableWordsDecode
  decide

end Sys2Proof.Machine
end

section
/-! Proofs for 42_clock.md: what each clock command and event answers, and the obligations about the clock alone. -/

namespace Sys2Proof.Machine

open Sys2Proof

/-! ### The guards -/

theorem unlessPending_of_idle {s : State} (h : s.fault = none) (hc : s.clk.cycleState = .idle)
    (k : Host.Outcome State Fault Refusal) : unlessPending s k = k := by
  simp [unlessPending, live_of_none h, State.cyclePending, hc]

theorem unlessPending_of_pending {s : State} (h : s.fault = none) (hc : s.clk.cycleState ≠ .idle)
    (k : Host.Outcome State Fault Refusal) : unlessPending s k = .refused .cyclePending := by
  simp [unlessPending, live_of_none h, State.cyclePending, hc]

@[simp] theorem State.setCycleState_fault (s : State) (c : CycleState) : (s.setCycleState c).fault = s.fault := rfl

@[simp] theorem State.unlessFailed_of_none {s : State} (h : s.fault = none) (rest : State → State) :
    s.unlessFailed rest = rest s := by
  rw [State.unlessFailed, h]

@[simp] theorem State.unlessFailed_of_some {s : State} {f : Fault} (h : s.fault = some f) (rest : State → State) :
    s.unlessFailed rest = s := by
  rw [State.unlessFailed, h]

/-! ### What the commands and events answer -/

section
variable {s : State} (h : s.fault = none)
include h

theorem exec_clkStep (hc : s.clk.cycleState = .idle) : exec .clkStep s = .next s.opened.transition :=
  unlessPending_of_idle h hc _

theorem exec_clkTick_of_running (hr : s.clk.running = true) : exec .clkTick s = .next s.opened.transition := by
  rw [exec, execClkTick, live_of_none h, if_pos hr]

theorem exec_clkTick_of_not_running (hr : s.clk.running = false) : exec .clkTick s = .refused .tickNotEnabled := by
  rw [exec, execClkTick, live_of_none h, if_neg (by simp [hr])]

theorem exec_clkSetInterval (hc : s.clk.cycleState = .idle) (ms : Int) : exec (.clkSetInterval ms) s =
    .next ((s.setClk { s.clk with interval := clampInterval ms }).answer .nothing) := by
  rw [← State.withInterval_eq]
  exact unlessPending_of_idle h hc _

theorem exec_clkCycle_of_low (hc : s.clk.cycleState = .idle) (hp : s.clk.phase = .low) :
    exec .clkCycle s = .next s.beginCycle := by
  simp [exec, execClkCycle, live_of_none h, State.cyclePending, hc, hp]

theorem exec_clkCycle_of_high (hc : s.clk.cycleState = .idle) (hp : s.clk.phase = .high) :
    exec .clkCycle s = .refused .cycleFromHigh := by
  simp [exec, execClkCycle, live_of_none h, State.cyclePending, hc, hp]

theorem exec_clkCycle_of_pending (hc : s.clk.cycleState ≠ .idle) : exec .clkCycle s = .next (s.answer .nothing) := by
  simp [exec, execClkCycle, live_of_none h, State.cyclePending, hc]

theorem exec_clkCycleFall_of_pendingFall (hc : s.clk.cycleState = .pendingFall) :
    exec .clkCycleFall s = .next s.endCycle := by
  rw [exec, execClkCycleFall, live_of_none h, hc]

theorem exec_clkCycleFall_of_not_pendingFall (hc : s.clk.cycleState ≠ .pendingFall) :
    exec .clkCycleFall s = .refused .cycleFallNotEnabled := by
  rw [exec, execClkCycleFall, live_of_none h]
  cases hs : s.clk.cycleState with
  | pendingFall => exact absurd hs hc
  | pendingRise => rfl
  | idle => rfl

/-- The second half of a cycle, from HIGH: the falling step, and then the cycle is over (R118). -/
theorem State.endCycle_of_high (hp : s.clk.phase = .high) : s.endCycle = { s with
    clk := { s.clk with phase := .low, cycleState := .idle }, reply := .cycleDone, notified := s.clk.falling } := by
  have ht := State.transition_high (s := s.opened) hp
  have hf : s.opened.transition.fault = none := by rw [ht]; exact h
  rw [State.endCycle, State.unlessFailed_of_none hf, ht]
  rfl

/-- A rising transition neither reads nor writes the cycle state. -/
theorem State.transition_setCycleState (hp : s.clk.phase = .low) (c : CycleState) :
    (s.setCycleState c).transition = s.transition.setCycleState c := by
  rw [State.transition_low hp, State.transition_low (s := s.setCycleState c) hp, State.dispatchFrom_setClk _ _ h,
    State.dispatchFrom_setClk _ _ (s := s.setCycleState c) h, State.setCycleState, State.dispatchFrom_setClk _ _ h]
  rfl

/-- The first half of a cycle is the step of the stopped clock, after which the falling half is pending (R117). -/
theorem State.beginCycle_of_completed (hp : s.clk.phase = .low) (hf : s.opened.stopTimer.transition.fault = none) :
    s.beginCycle = s.opened.stopTimer.transition.setCycleState .pendingFall := by
  rw [State.beginCycle, State.transition_setCycleState (s := s.opened.stopTimer) h hp,
    State.unlessFailed_of_none ((State.setCycleState_fault _ _).trans hf)]
  rfl

/-- When that step fails, the rest of the cycle is not executed (R188). -/
theorem State.beginCycle_of_failed {f : Fault} (hp : s.clk.phase = .low)
    (hf : s.opened.stopTimer.transition.fault = some f) :
    s.beginCycle = s.opened.stopTimer.transition.setCycleState .pendingRise := by
  rw [State.beginCycle, State.transition_setCycleState (s := s.opened.stopTimer) h hp,
    State.unlessFailed_of_some ((State.setCycleState_fault _ _).trans hf)]

end

theorem clampInterval_of_lt {ms : Int} (h : ms < 2) : clampInterval ms = 2 := by
  simp only [clampInterval, Config.intervalMin, Config.intervalMax]; omega

theorem clampInterval_of_gt {ms : Int} (h : 5000 < ms) : clampInterval ms = 5000 := by
  simp only [clampInterval, Config.intervalMin, Config.intervalMax]; omega

theorem intCast_clampInterval {ms : Int} (h2 : 2 ≤ ms) (h5000 : ms ≤ 5000) : (clampInterval ms : Int) = ms := by
  simp only [clampInterval, Config.intervalMin, Config.intervalMax]; omega

/-! ### The obligations -/

/-- Settles O8: the frame of a transition, from LOW. -/
theorem stepFromLowRaisesThePhase : Obligations.StepFromLowRaisesThePhase := by
  intro s h hc hp
  obtain ⟨hclk, hcbus, hagenda, hwiring⟩ := State.transition_frame (s := s.opened) h
  refine ⟨_, exec_clkStep h hc, ?_, hcbus, hagenda, hwiring⟩
  rw [hclk, State.opened_clk, hp]

/-- Settles O12: the first half of a cycle by whether its step failed. -/
theorem cycleStopsThenSteps : Obligations.CycleStopsThenSteps := by
  intro s h hc hp
  refine ⟨s.opened.stopTimer.transition, exec_clkStep (s := { s with clk := _ }) h hc, fun hv => ?_, fun hv => ?_⟩
  · rw [exec_clkCycle_of_low h hc hp, State.beginCycle_of_completed h hp hv]
    rfl
  · obtain ⟨f, hf⟩ := Option.ne_none_iff_exists'.1 hv
    rw [exec_clkCycle_of_low h hc hp, State.beginCycle_of_failed h hp hf]
    rfl

/-- Settles O15: a tick while running and the step answer the same transition, whose frame keeps `running`. -/
theorem tickIsAStepWhileRunning : Obligations.TickIsAStepWhileRunning := by
  intro s h
  refine ⟨fun hr hc => ?_, exec_clkTick_of_not_running h⟩
  obtain ⟨hclk, -⟩ := State.transition_frame (s := s.opened) h
  refine ⟨_, exec_clkTick_of_running h hr, exec_clkStep h hc, ?_, ?_⟩
  · rw [hclk]
    exact hr
  · rw [hclk, State.opened_clk]
    cases s.clk.phase <;> simp

/-- Settles O9: a transition from HIGH. -/
theorem fallingStepChangesOnlyThePhase : Obligations.FallingStepChangesOnlyThePhase := by
  intro s h hc hp
  rw [exec_clkStep h hc, State.transition_high (s := s.opened) hp]
  rfl

/-- Settles O10: with no cycle pending the two commands pass their guard. -/
theorem startAndStopWriteRunning : Obligations.StartAndStopWriteRunning := fun _ h hc =>
  ⟨unlessPending_of_idle h hc _, unlessPending_of_idle h hc _⟩

/-- Settles O11: the interval becomes the clamped value. -/
theorem setIntervalClamps : Obligations.SetIntervalClamps := fun ms _ h hc =>
  ⟨clampInterval ms, exec_clkSetInterval h hc ms, clampInterval_of_lt, clampInterval_of_gt, intCast_clampInterval⟩

/-- Settles O13: the pending case of `CLK.CYCLE`. -/
theorem cycleWhilePendingIsNoOp : Obligations.CycleWhilePendingIsNoOp := fun _ h hc =>
  exec_clkCycle_of_pending h hc

/-- Settles O14: the second half of a cycle from HIGH. -/
theorem cycleFallEndsTheCycle : Obligations.CycleFallEndsTheCycle := by
  intro s h hc hp
  rw [exec_clkCycleFall_of_pendingFall h hc, State.endCycle_of_high h hp]

/-- Settles O16: each command at its guard. -/
theorem clockRefusesWhenTheSpecGivesNoMeaning : Obligations.ClockRefusesWhenTheSpecGivesNoMeaning := fun _ h =>
  ⟨fun hc => ⟨unlessPending_of_pending h hc _, unlessPending_of_pending h hc _, unlessPending_of_pending h hc _,
      fun _ => unlessPending_of_pending h hc _⟩,
    exec_clkCycle_of_high h, exec_clkCycleFall_of_not_pendingFall h⟩

/-- Settles O17: a subscription passes the guard of every command. -/
theorem subscriptionsAppend : Obligations.SubscriptionsAppend := fun _ _ h =>
  ⟨live_of_none h _, live_of_none h _⟩

end Sys2Proof.Machine
end

section
/-! Proofs about the micro-operations and the rising edge: what one of them can do and where, the edge as the decoded word, the
ALU's result after it, the observers it tells, and where a fault can come from. -/

namespace Sys2Proof.Machine

open Sys2Proof

/-! ### One micro-operation, and its place -/

/-- The component that a micro-operation is of. -/
def Micro.place : Micro → Nat
  | .regDrive r => r.comp
  | .regLoad r => r.comp
  | .cntLoad k => k
  | .cntInc k => k
  | .cntDrive k => k
  | .memWrite k => k
  | .memRead k => k
  | .aluAdd k => k
  | .aluSub k => k

/-- The states that a micro-operation of the component at place `k` may lead to. -/
inductive MicroEffect (s : State) (k : Nat) : State → Prop where
  | kept : MicroEffect s k s
  | dataBus (v : Word) : MicroEffect s k (s.setDbus v)
  | component (c : Component) : MicroEffect s k (s.setComp k c)
  | raised (m : Memory) (hm : s.memory? k = some m) (ha : m.cfg.size ≤ m.mar.toNat) :
      MicroEffect s k (s.raise (.invalidMemoryAddress m.mar.toNat))

theorem MicroEffect.withCell {s : State} {k : Nat} {act : State → State} (h : MicroEffect s k (act s)) :
    MicroEffect s k (s.withCell k act) := by
  cases hm : s.memory? k with
  | none =>
    rw [State.withCell, hm]
    exact .kept
  | some m =>
    rcases Nat.lt_or_ge m.mar.toNat m.cfg.size with ha | ha
    · rw [State.withCell_addressed hm ha]
      exact h
    · rw [State.withCell_fault hm ha]
      exact .raised m hm ha

theorem MicroEffect.recompute (s : State) (k : Nat) (sub : Bit) : MicroEffect s k (s.recompute k sub) := by
  unfold State.recompute
  split
  · exact .component _
  · exact .kept

/-- What a micro-operation can do. -/
theorem State.perform_effect (s : State) (m : Micro) : MicroEffect s (Micro.place m) (s.perform m) := by
  cases m with
  | regDrive r =>
    simp only [State.perform, State.driveReg]
    split
    · exact .dataBus _
    · exact .kept
  | regLoad r =>
    simp only [State.perform, State.loadReg, State.updateReg]
    split
    · exact .component _
    · exact .kept
  | cntLoad k =>
    simp only [State.perform, State.loadCounter]
    split
    · exact .component _
    · exact .kept
  | cntInc k =>
    simp only [State.perform, State.incCounter]
    split
    · exact .component _
    · exact .kept
  | cntDrive k =>
    simp only [State.perform, State.driveCounter]
    split
    · exact .dataBus _
    · exact .kept
  | memWrite k =>
    refine MicroEffect.withCell (act := fun t => t.storeCell k) ?_
    simp only [State.storeCell]
    split
    · exact .component _
    · exact .kept
  | memRead k =>
    refine MicroEffect.withCell (act := fun t => t.fetchCell k) ?_
    simp only [State.fetchCell]
    split
    · exact .dataBus _
    · exact .kept
  | aluAdd k => exact .recompute s k false
  | aluSub k => exact .recompute s k true

theorem MicroEffect.comps_ne {s t : State} {k j : Nat} (h : MicroEffect s k t) (hj : k ≠ j) :
    t.comps[j]? = s.comps[j]? := by
  cases h with
  | kept => rfl
  | dataBus v => rfl
  | component c => exact State.setComp_comps_ne s k j c hj.symm
  | raised m hm ha => rw [State.raise_comps]

/-- A sequence of micro-operations of other components leaves a component alone. -/
theorem performAll_comps_ne {ms : List Micro} {j : Nat} (h : ∀ m ∈ ms, Micro.place m ≠ j) (s : State) :
    (performAll ms s).comps[j]? = s.comps[j]? := by
  induction ms generalizing s with
  | nil => rfl
  | cons m ms ih =>
    have hm := (s.perform_effect m).comps_ne (h m List.mem_cons_self)
    cases hf : (s.perform m).fault with
    | none => rw [performAll_cons hf, ih (fun n hn => h n (List.mem_cons_of_mem _ hn)), hm]
    | some f => rw [performAll_cons_fault hf, hm]

/-- When a sequence does not fault, its first part does not, and the rest follows it. -/
theorem performAll_append_of_fault_eq_none {a b : List Micro} {s : State} (hs : s.fault = none)
    (h : (performAll (a ++ b) s).fault = none) :
    (performAll a s).fault = none ∧ performAll (a ++ b) s = performAll b (performAll a s) := by
  rw [performAll_append a b s hs] at h ⊢
  cases hf : (performAll a s).fault with
  | none => exact ⟨rfl, rfl⟩
  | some f => simp [hf] at h

/-! ### The edge as the decoded word (R73, R112) -/

theorem decode_observers (wir : Wiring) (obs : List Nat) (w : Word) : decode wir (obs.map .observer) w = [] := by
  induction obs with
  | nil => rfl
  | cons cb obs ih => exact ih

theorem decode_handlers_append_observers (wir : Wiring) (obs : List Nat) (w : Word) :
    decode wir (Wiring.handlers wir ++ obs.map .observer) w = decode wir (Wiring.handlers wir) w := by
  rw [decode_append, decode_observers, List.append_nil]

/-- A rising step, under whatever Clock, performs the decoded word, which does not read the Clock, and raises the phase; a
failure shows in the reply and in who was told. -/
theorem exec_clkStep_eq_performAll {s : State} {c : Clock} (h : s.fault = none) (hc : c.cycleState = .idle)
    (hp : c.phase = .low) : ∃ r n,
    exec .clkStep (s.setClk c) = .next ((performAll (decode s.wiring c.rising s.cbus) s).retag
      { c with phase := .high } s.agenda r n) ∧
    ((performAll (decode s.wiring c.rising s.cbus) s).fault = none →
      r = .nothing ∧ n = c.rising.filterMap observerOf) := by
  obtain ⟨r, n, heq, -, hok⟩ := State.dispatchFrom_eq c.rising 0
    (s := s.retag { c with phase := .high } s.agenda .nothing []) h
  rw [performAll_retag] at heq hok
  refine ⟨r, n, ?_, hok⟩
  rw [exec_clkStep_low (s := s.setClk c) h hc hp]
  exact congrArg Host.Outcome.next heq

/-- Settles O42: the step performs the decoded word, and neither the phase nor the outputs are read by it. -/
theorem risingEdgePerformsTheDecodedWord : Obligations.RisingEdgePerformsTheDecodedWord := by
  intro s h hc hp
  obtain ⟨r, n, heq, -⟩ := exec_clkStep_eq_performAll h hc hp
  refine ⟨_, heq, ?_⟩
  have hstart : { s with clk := { s.clk with phase := .high } } =
      s.retag { s.clk with phase := .high } s.agenda s.reply s.notified := rfl
  rw [hstart, performAll_retag]
  rfl

/-! ### The ALU's result after an edge (R164) -/

/-- The component that a core handler is of; an observer is of none. -/
def Subscriber.place? : Subscriber → Option Nat
  | .reg r => some r.comp
  | .counter k => some k
  | .cells k => some k
  | .recompute k => some k
  | .observer _ => none

/-- A subscriber performs micro-operations of its own component. -/
theorem place?_eq_of_mem_select {wir : Wiring} {w : Word} {h : Subscriber} {m : Micro} (hm : m ∈ h.select wir w) :
    Subscriber.place? h = some (Micro.place m) := by
  cases h with
  | reg r =>
    simp only [Subscriber.select] at hm
    split at hm
    · simp only [List.mem_append, mem_gated] at hm
      obtain ⟨-, rfl⟩ | ⟨-, rfl⟩ := hm
      all_goals rfl
    · cases hm
  | counter k =>
    simp only [Subscriber.select] at hm
    split at hm
    · simp only [List.mem_append, mem_gated] at hm
      obtain (⟨-, rfl⟩ | ⟨-, rfl⟩) | ⟨-, rfl⟩ := hm
      all_goals rfl
    · cases hm
  | cells k =>
    simp only [Subscriber.select] at hm
    split at hm
    · simp only [List.mem_append, mem_gated] at hm
      obtain ⟨-, rfl⟩ | ⟨-, rfl⟩ := hm
      all_goals rfl
    · cases hm
  | recompute k =>
    simp only [Subscriber.select] at hm
    split at hm
    · obtain rfl := List.mem_singleton.1 hm
      split <;> rfl
    · cases hm
  | observer cb => cases hm

theorem handlersFrom_append (k : Nat) (a b : Wiring) :
    Wiring.handlersFrom k (a ++ b) = Wiring.handlersFrom k a ++ Wiring.handlersFrom (k + a.length) b := by
  induction a generalizing k with
  | nil => rfl
  | cons c a ih => simp [Wiring.handlersFrom, ih, Nat.add_comm, Nat.add_left_comm]

/-- A subscriber that a component appends is of that component, and names it as what it is. -/
theorem place?_and_fits_of_mem_compHandlers {c : CompCfg} {k : Nat} {h : Subscriber} (hh : h ∈ c.handlers k) :
    Subscriber.place? h = some k ∧ ∀ sh : Shape, sh.has k c.kind = true → h.fits sh = true := by
  cases c with
  | register c =>
    obtain rfl : h = _ := by simpa [CompCfg.handlers] using hh
    exact ⟨rfl, fun _ hhas => hhas⟩
  | counter c =>
    obtain rfl : h = _ := by simpa [CompCfg.handlers] using hh
    exact ⟨rfl, fun _ hhas => hhas⟩
  | memory c =>
    obtain rfl | rfl : h = _ ∨ h = _ := by simpa [CompCfg.handlers] using hh
    all_goals exact ⟨rfl, fun _ hhas => hhas⟩
  | alu c =>
    obtain rfl | rfl | rfl | rfl : h = _ ∨ h = _ ∨ h = _ ∨ h = _ := by simpa [CompCfg.handlers] using hh
    all_goals exact ⟨rfl, fun _ hhas => hhas⟩

theorem place?_of_mem_handlersFrom {k : Nat} {wir : Wiring} {h : Subscriber} (hh : h ∈ Wiring.handlersFrom k wir) :
    ∃ j, k ≤ j ∧ Subscriber.place? h = some j := by
  induction wir generalizing k with
  | nil => cases hh
  | cons c wir ih =>
    rcases List.mem_append.1 hh with hh | hh
    · exact ⟨k, Nat.le_refl k, (place?_and_fits_of_mem_compHandlers hh).1⟩
    · obtain ⟨j, hj, hp⟩ := ih hh
      exact ⟨j, Nat.le_of_succ_le hj, hp⟩

theorem decode_recompute_cons {wir : Wiring} {k : Nat} {c : AluCfg} (h : wir[k]? = some (.alu c))
    (rest : List Subscriber) (w : Word) : decode wir (.recompute k :: rest) w =
      (if w.getLsbD c.subIndex then .aluSub k else .aluAdd k) :: decode wir rest w := by
  rw [decode, List.flatMap_cons, Subscriber.select, h]
  rfl

/-- In a word decoded in construction order, an ALU's recompute comes after everything else of the ALU. -/
theorem decode_handlers_of_alu {wir : Wiring} {k : Nat} {c : AluCfg} (h : wir[k]? = some (.alu c)) (w : Word) :
    ∃ before after, decode wir (Wiring.handlers wir) w =
        before ++ (if w.getLsbD c.subIndex then .aluSub k else .aluAdd k) :: after ∧
      ∀ m ∈ after, Micro.place m ≠ k := by
  obtain ⟨hk, hget⟩ := List.getElem?_eq_some_iff.1 h
  have hsplit : wir = wir.take k ++ .alu c :: wir.drop (k + 1) := by
    rw [← hget, List.getElem_cons_drop, List.take_append_drop]
  have hlen : (wir.take k).length = k := List.length_take_of_le hk.le
  have hhandlers : Wiring.handlers wir = Wiring.handlersFrom 0 (wir.take k) ++
      ([.reg ⟨k, .a⟩, .reg ⟨k, .b⟩, .reg ⟨k, .out⟩] ++
        .recompute k :: Wiring.handlersFrom (k + 1) (wir.drop (k + 1))) := by
    conv_lhs => rw [hsplit]
    rw [Wiring.handlers, handlersFrom_append, hlen, Nat.zero_add]
    rfl
  refine ⟨decode wir (Wiring.handlersFrom 0 (wir.take k)) w ++
      decode wir [.reg ⟨k, .a⟩, .reg ⟨k, .b⟩, .reg ⟨k, .out⟩] w,
    decode wir (Wiring.handlersFrom (k + 1) (wir.drop (k + 1))) w, ?_, fun m hm => ?_⟩
  · rw [hhandlers, decode_append, decode_append, decode_recompute_cons h, List.append_assoc]
  · obtain ⟨x, hx, hm⟩ := List.mem_flatMap.1 hm
    obtain ⟨j, hj, hp⟩ := place?_of_mem_handlersFrom hx
    rw [place?_eq_of_mem_select hm, Option.some.injEq] at hp
    omega

theorem exists_alu_of_wiring {s : State} {k : Nat} {c : AluCfg} (h : s.wiring[k]? = some (.alu c)) :
    ∃ u, s.alu? k = some u ∧ u.cfg = c := by
  rw [State.wiring_getElem?, Option.map_eq_some_iff] at h
  obtain ⟨d, hd, hc⟩ := h
  cases d with
  | alu u =>
    cases hc
    exact ⟨u, State.alu?_eq_some.2 hd, rfl⟩
  | _ => cases hc

/-- The recompute's two forms are one operation. -/
theorem perform_recompute {s : State} {k : Nat} {u : Alu} (h : s.alu? k = some u) (sub : Bit) :
    s.perform (if sub then .aluSub k else .aluAdd k) =
      s.setComp k (.alu { u with out := if sub then u.a - u.b else u.a + u.b }) := by
  rw [← State.recompute_eq h sub]
  cases sub <;> rfl

/-- After a recompute that nothing of the same ALU follows, the ALU holds the result for the operands it holds. -/
theorem alu_out_of_performAll_recompute {s : State} {k : Nat} {sub : Bit} {c : AluCfg} {before after : List Micro} {u : Alu}
    (hs : s.fault = none) (hc : s.wiring[k]? = some (.alu c)) (hafter : ∀ m ∈ after, Micro.place m ≠ k)
    (hf : (performAll (before ++ (if sub then .aluSub k else .aluAdd k) :: after) s).fault = none)
    (hu : (performAll (before ++ (if sub then .aluSub k else .aluAdd k) :: after) s).comps[k]? = some (.alu u)) :
    u.out = if sub then u.a - u.b else u.a + u.b := by
  obtain ⟨hbefore, heq⟩ := performAll_append_of_fault_eq_none hs hf
  obtain ⟨v, hv, -⟩ := exists_alu_of_wiring (s := performAll before s)
    ((congrArg (·[k]?) (Frame.performAll before s).wiring).trans hc)
  have hrec := perform_recompute hv sub
  rw [heq, performAll_cons (by rw [hrec]; exact hbefore), hrec, performAll_comps_ne hafter,
    State.setComp_comps_self _ _ _ _ (State.alu?_eq_some.1 hv)] at hu
  cases hu
  rfl

/-- Settles O35: the ALU's recompute is performed when its `A` and `B` are final, and nothing after it touches the ALU. -/
theorem everyRisingEdgeLeavesTheAluResult : Obligations.EveryRisingEdgeLeavesTheAluResult := by
  intro s t obs h hc hp hrising hstep hfault k u hu
  obtain ⟨r, n, heq, -⟩ := exec_clkStep_eq_performAll h hc hp
  rw [hrising, decode_handlers_append_observers] at heq
  obtain rfl := Host.Outcome.next.inj (hstep.symm.trans heq)
  have hframe := Frame.performAll (decode s.wiring (Wiring.handlers s.wiring) s.cbus) s
  have hcfg : s.wiring[k]? = some (.alu u.cfg) := by
    rw [← hframe.wiring, State.wiring_getElem?]
    exact congrArg (Option.map Component.cfg) hu
  obtain ⟨before, after, hdecode, hafter⟩ := decode_handlers_of_alu hcfg s.cbus
  simp only [State.retag, hframe.cbus] at hfault hu ⊢
  rw [hdecode] at hfault hu
  exact alu_out_of_performAll_recompute h hcfg hafter hfault hu

/-! ### The observers that an edge tells (R112, R120) -/

theorem filterMap_observerOf_handlers_append (wir : Wiring) (obs : List Nat) :
    (Wiring.handlers wir ++ obs.map Subscriber.observer).filterMap observerOf = obs := by
  rw [List.filterMap_append, Wiring.handlers, observerOf_handlers, List.nil_append, List.filterMap_map]
  exact List.filterMap_some

/-- Settles O18: the two steps perform the same decoded word, and differ in the list and in whom they tell. -/
theorem observersAreToldInOrder : Obligations.ObserversAreToldInOrder := by
  intro s t obs h hc hp hrising hstep hfault
  obtain ⟨r, n, heq, hok⟩ := exec_clkStep_eq_performAll h hc hp
  obtain ⟨r', n', heq', hok'⟩ :=
    exec_clkStep_eq_performAll (c := { s.clk with rising := Wiring.handlers s.wiring }) h hc hp
  rw [hrising, decode_handlers_append_observers] at heq hok
  rw [filterMap_observerOf_handlers_append] at hok
  obtain rfl := Host.Outcome.next.inj (hstep.symm.trans heq)
  obtain ⟨rfl, rfl⟩ := hok hfault
  obtain ⟨rfl, rfl⟩ := hok' hfault
  refine ⟨rfl, heq'.trans ?_⟩
  rw [Wiring.handlers, observerOf_handlers]
  rfl

end Sys2Proof.Machine
end

section
/-! Proofs about every instruction and every step: what they leave unchanged, where a fault can come from, and the
invariant. -/

namespace Sys2Proof.Machine

open Sys2Proof

/-! ### What an instruction leaves unchanged (R39, R61) -/

section
variable {s : State} (h : s.fault = none)
include h

theorem State.beginCycle_frame : s.beginCycle.cbus = s.cbus ∧ s.beginCycle.wiring = s.wiring := by
  obtain ⟨-, hcbus, -, hwiring⟩ := State.transition_frame (s := s.opened.stopTimer.setCycleState .pendingRise) h
  exact ⟨(State.unlessFailed_keeps State.cbus _ _ rfl).trans hcbus,
    (State.unlessFailed_keeps State.wiring _ _ rfl).trans hwiring⟩

theorem State.endCycle_frame : s.endCycle.cbus = s.cbus ∧ s.endCycle.wiring = s.wiring := by
  obtain ⟨-, hcbus, -, hwiring⟩ := State.transition_frame (s := s.opened) h
  exact ⟨(State.unlessFailed_keeps State.cbus _ _ rfl).trans hcbus,
    (State.unlessFailed_keeps State.wiring _ _ rfl).trans hwiring⟩

theorem Effect.wiring_eq {i : Instr} {t : State} (he : Effect i s t) : t.wiring = s.wiring := by
  cases he with
  | micro m hi => exact (Frame.perform s m).wiring
  | transition hi =>
    obtain ⟨-, -, -, hwiring⟩ := State.transition_frame (s := s.opened) h
    exact hwiring
  | beginCycle hi hc hp => exact (State.beginCycle_frame h).2
  | endCycle hi hc => exact (State.endCycle_frame h).2
  | clock c r hc => rfl
  | answer r => rfl
  | raised k m hm ha => exact (Frame.raise s _).wiring
  | register r f => exact State.wiring_updateReg s r f
  | counter k c v hc => exact State.wiring_setComp s k _ _ (State.counter?_eq_some.1 hc) rfl
  | cell k m v hm ha => exact State.wiring_setComp s k _ _ (State.memory?_eq_some.1 hm) rfl
  | dataBus v => rfl
  | controlBus v hi => rfl

theorem Effect.cbus_eq {i : Instr} {t : State} (he : Effect i s t) (hset : ∀ j v, i ≠ .busSet .cbus j v)
    (hassign : ∀ v, i ≠ .busAssign .cbus v) : t.cbus = s.cbus := by
  cases he with
  | micro m hi => exact (Frame.perform s m).cbus
  | transition hi =>
    obtain ⟨-, hcbus, -⟩ := State.transition_frame (s := s.opened) h
    exact hcbus
  | beginCycle hi hc hp => exact (State.beginCycle_frame h).1
  | endCycle hi hc => exact (State.endCycle_frame h).1
  | clock c r hc => rfl
  | answer r => rfl
  | raised k m hm ha => exact (Frame.raise s _).cbus
  | register r f => exact (Frame.updateReg s r f).cbus
  | counter k c v hc => rfl
  | cell k m v hm ha => rfl
  | dataBus v => rfl
  | controlBus v hi =>
    obtain ⟨j, w, hi⟩ | ⟨w, hi⟩ := hi
    · exact absurd hi (hset j w)
    · exact absurd hi (hassign w)

end

/-- Settles O49: each effect keeps the configuration, and a step is an instruction or a rest. -/
theorem configurationNeverChanges : Obligations.ConfigurationNeverChanges := by
  have hexec (i : Instr) (s t : State) (h : exec i s = .next t) : t.wiring = s.wiring := by
    obtain ⟨hs, he⟩ := exec_eq_next h
    exact he.wiring_eq hs
  refine ⟨hexec, fun s t h => ?_⟩
  obtain ⟨-, ⟨-, rfl⟩ | ⟨i, u, hu, -, h⟩⟩ := step_eq_next h
  · rfl
  · obtain ⟨ag, rfl⟩ := State.nextTransaction_eq_some hu
    exact hexec i { s with agenda := ag } t h

/-- Settles O50: of the twelve effects only the host's write reaches the control bus. -/
theorem onlyTheHostWritesTheControlBus : Obligations.OnlyTheHostWritesTheControlBus := by
  intro i s t hset hassign h
  obtain ⟨hs, he⟩ := exec_eq_next h
  exact he.cbus_eq hs hset hassign

/-! ### Where a fault comes from (R156, R184) -/

/-- A recorded fault names a Memory whose address register, which is recorded, has no cell. -/
def State.FaultIsAddress (s : State) : Prop :=
  ∀ f, s.fault = some f →
    ∃ k m, s.memory? k = some m ∧ m.cfg.size ≤ m.mar.toNat ∧ f = .invalidMemoryAddress m.mar.toNat

theorem State.faultIsAddress_of_none {s : State} (h : s.fault = none) : s.FaultIsAddress := fun f hf => by
  rw [h] at hf
  cases hf

theorem State.faultIsAddress_raise {s : State} (h : s.fault = none) {k : Nat} {m : Memory} (hm : s.memory? k = some m)
    (ha : m.cfg.size ≤ m.mar.toNat) : (s.raise (.invalidMemoryAddress m.mar.toNat)).FaultIsAddress := by
  rw [State.raise_fault_of_none s _ h]
  intro f hf
  cases hf
  exact ⟨k, m, hm, ha, rfl⟩

theorem MicroEffect.faultIsAddress {s t : State} {k : Nat} (he : MicroEffect s k t) (h : s.fault = none) :
    t.FaultIsAddress := by
  cases he with
  | kept => exact State.faultIsAddress_of_none h
  | dataBus v => exact State.faultIsAddress_of_none h
  | component c => exact State.faultIsAddress_of_none h
  | raised m hm ha => exact State.faultIsAddress_raise h hm ha

theorem performAll_faultIsAddress (ms : List Micro) {s : State} (h : s.fault = none) :
    (performAll ms s).FaultIsAddress := by
  induction ms generalizing s with
  | nil => exact State.faultIsAddress_of_none h
  | cons m ms ih =>
    cases hf : (s.perform m).fault with
    | none =>
      rw [performAll_cons hf]
      exact ih hf
    | some f =>
      rw [performAll_cons_fault hf]
      exact (s.perform_effect m).faultIsAddress h

theorem State.transition_faultIsAddress {s : State} (h : s.fault = none) : s.transition.FaultIsAddress := by
  cases hp : s.clk.phase with
  | low =>
    obtain ⟨r, n, heq, -⟩ := State.dispatchFrom_eq s.clk.rising 0 (s := s.setClk { s.clk with phase := .high }) h
    rw [State.transition_low hp, heq]
    exact performAll_faultIsAddress _ (s := s.setClk _) h
  | high =>
    rw [State.transition_high hp]
    exact State.faultIsAddress_of_none h

theorem Effect.faultIsAddress {i : Instr} {s t : State} (h : s.fault = none) (he : Effect i s t) : t.FaultIsAddress := by
  cases he with
  | micro m hi => exact (s.perform_effect m).faultIsAddress h
  | transition hi => exact State.transition_faultIsAddress (s := s.opened) h
  | beginCycle hi hc hp =>
    exact (State.unlessFailed_keeps State.FaultIsAddress _ _ rfl).mpr
      (State.transition_faultIsAddress (s := State.setCycleState _ _) h)
  | endCycle hi hc =>
    exact (State.unlessFailed_keeps State.FaultIsAddress _ _ rfl).mpr (State.transition_faultIsAddress (s := s.opened) h)
  | raised k m hm ha => exact State.faultIsAddress_raise h hm ha
  | clock c r hc => exact State.faultIsAddress_of_none h
  | answer r => exact State.faultIsAddress_of_none h
  | register r f => exact State.faultIsAddress_of_none (by rw [State.answer_fault, State.updateReg_rest]; exact h)
  | counter k c v hc => exact State.faultIsAddress_of_none h
  | cell k m v hm ha => exact State.faultIsAddress_of_none h
  | dataBus v => exact State.faultIsAddress_of_none h
  | controlBus v hi => exact State.faultIsAddress_of_none h

/-- Settles O46: each effect that records a fault records a Memory's address. -/
theorem onlyAMemoryCanFault : Obligations.OnlyAMemoryCanFault := by
  intro i s t f hs h hf
  obtain ⟨-, he⟩ := exec_eq_next h
  exact he.faultIsAddress hs f hf

/-! ### The invariant (R25, R27, R28, R30, R125) -/

/-- What keeps the Clock and the configuration keeps the invariant when it keeps the components legal and canonical. -/
theorem State.Inv.of_clk_eq {s t : State} (h : s.Inv) (hs : s.fault = none) (hcomps : t.compsOk)
    (hclk : t.clk = s.clk) (hwiring : t.wiring = s.wiring) : t.Inv where
  comps := hcomps
  rising := by rw [hclk, hwiring]; exact h.rising
  interval := by rw [hclk]; exact h.interval
  pending := by rw [hclk]; exact h.pending
  pendingRise hr := absurd hs (h.pendingRise (by rw [← hclk]; exact hr))

theorem State.Inv.of_clockFrame {s : State} (h : s.Inv) {c : Clock} (hc : ClockFrame s.clk c) (r : Reply) :
    ((s.setClk c).answer r).Inv where
  comps := h.comps
  rising x hx := by
    obtain hr | ⟨cb, hr⟩ := hc.rising
    · exact h.rising x (hr ▸ hx)
    · rcases List.mem_append.1 (hr ▸ hx : x ∈ s.clk.rising ++ [.observer cb]) with hx | hx
      · exact h.rising x hx
      · obtain rfl := List.mem_singleton.1 hx
        rfl
  interval := by
    obtain hi | hi := hc.interval
    · exact hi ▸ h.interval
    · exact hi
  pending hp := by
    have hp : s.clk.cycleState ≠ .idle := hc.cycleState ▸ hp
    obtain ⟨hhigh, hstopped⟩ := h.pending hp
    obtain hr | hr := hc.running
    · exact ⟨hc.phase.trans hhigh, hr.trans hstopped⟩
    · exact absurd hr hp
  pendingRise hp := h.pendingRise (hc.cycleState.symm.trans hp)

/-- A transition of a Clock with no cycle pending keeps the invariant. -/
theorem State.Inv.transition {s : State} (h : s.Inv) (hs : s.fault = none) (hc : s.clk.cycleState = .idle) :
    s.transition.Inv := by
  obtain ⟨hclk, -, -, hwiring⟩ := State.transition_frame hs
  constructor
  case comps => exact State.compsOk_transition hs h.comps
  case rising => rw [hclk, hwiring]; exact h.rising
  case interval => rw [hclk]; exact h.interval
  case pending => rw [hclk]; exact fun hp => absurd hc hp
  case pendingRise =>
    rw [hclk]
    exact fun hp => by cases hc.symm.trans hp

theorem State.Inv.of_agenda {s : State} (h : s.Inv) (ag : List Instr) : State.Inv { s with agenda := ag } :=
  ⟨h.comps, h.rising, h.interval, h.pending, h.pendingRise⟩

theorem State.Inv.opened {s : State} (h : s.Inv) : s.opened.Inv :=
  ⟨h.comps, h.rising, h.interval, h.pending, h.pendingRise⟩

/-- While running no cycle is pending. -/
theorem State.Inv.idle_of_running {s : State} (h : s.Inv) (hr : s.clk.running = true) : s.clk.cycleState = .idle := by
  by_contra hc
  obtain ⟨-, hstopped⟩ := h.pending hc
  rw [hr] at hstopped
  cases hstopped

/-- The first half of a cycle leaves the clock HIGH and stopped with the falling half pending, or `PENDING_RISE` beside the
fault of its step. -/
theorem State.Inv.beginCycle {s : State} (h : s.Inv) (hs : s.fault = none) (hc : s.clk.cycleState = .idle)
    (hp : s.clk.phase = .low) : s.beginCycle.Inv := by
  have hstopped : s.opened.stopTimer.Inv :=
    ⟨h.comps, h.rising, h.interval, fun hne => absurd hc hne, h.pendingRise⟩
  have ht := hstopped.transition hs hc
  obtain ⟨hclk, -⟩ := State.transition_frame (s := s.opened.stopTimer) hs
  have hhigh : s.opened.stopTimer.transition.clk.phase = .high := by
    rw [hclk, show s.opened.stopTimer.clk.phase = .low from hp]
  have hrunning : s.opened.stopTimer.transition.clk.running = false := by rw [hclk]; rfl
  cases hf : s.opened.stopTimer.transition.fault with
  | none =>
    rw [State.beginCycle_of_completed hs hp hf]
    exact ⟨ht.comps, ht.rising, ht.interval, fun _ => ⟨hhigh, hrunning⟩, fun hr => by cases hr⟩
  | some f =>
    rw [State.beginCycle_of_failed hs hp hf]
    refine ⟨ht.comps, ht.rising, ht.interval, fun _ => ⟨hhigh, hrunning⟩, fun _ => ?_⟩
    rw [State.setCycleState_fault, hf]
    exact Option.some_ne_none f

/-- The second half of a cycle starts with the clock HIGH, and leaves none pending. -/
theorem State.Inv.endCycle {s : State} (h : s.Inv) (hs : s.fault = none) (hc : s.clk.cycleState = .pendingFall) :
    s.endCycle.Inv := by
  obtain ⟨hhigh, -⟩ := h.pending (by rw [hc]; decide)
  rw [State.endCycle_of_high hs hhigh]
  exact ⟨h.comps, h.rising, h.interval, fun hne => absurd rfl hne, fun hr => by cases hr⟩

theorem Effect.inv {i : Instr} {s t : State} (hi : isTransaction i = true) (hs : s.fault = none) (h : s.Inv)
    (he : Effect i s t) : t.Inv := by
  have hwiring := he.wiring_eq hs
  cases he with
  | micro m hm =>
    rw [isTransaction, hm] at hi
    cases hi
  | transition hi =>
    have hidle : s.clk.cycleState = .idle := by
      obtain ⟨-, hc⟩ | ⟨-, hr⟩ := hi
      · exact hc
      · exact h.idle_of_running hr
    exact h.opened.transition hs hidle
  | beginCycle hi hc hp => exact h.beginCycle hs hc hp
  | endCycle hi hc => exact h.endCycle hs hc
  | clock c r hc => exact h.of_clockFrame hc r
  | answer r => exact h.of_clk_eq hs h.comps rfl hwiring
  | raised k m hm ha =>
    refine h.of_clk_eq hs ?_ (State.raise_clk _ _) hwiring
    rw [State.compsOk, State.answer_comps, State.raise_comps]
    exact h.comps
  | register r f => exact h.of_clk_eq hs (State.compsOk_updateReg h.comps r f) (Frame.updateReg s r f).clk hwiring
  | counter k c v hc =>
    have hok := State.compsOk_get h.comps (State.counter?_eq_some.1 hc)
    exact h.of_clk_eq hs (State.compsOk_setComp h.comps k (Component.ok_of_cfg hok rfl fun _ e => by cases e)) rfl hwiring
  | cell k m v hm ha =>
    have hok := State.compsOk_get h.comps (State.memory?_eq_some.1 hm)
    exact h.of_clk_eq hs (State.compsOk_setComp h.comps k (Component.ok_writeCell hok ha v)) rfl hwiring
  | dataBus v => exact h.of_clk_eq hs h.comps rfl hwiring
  | controlBus v hi => exact h.of_clk_eq hs h.comps rfl hwiring

/-- Settles O55: each effect of a transaction keeps the invariant, and a step is a transaction or a rest. -/
theorem everyStepKeepsTheInvariant : Obligations.EveryStepKeepsTheInvariant := by
  intro s t h hstep
  obtain ⟨-, ⟨-, rfl⟩ | ⟨i, u, hu, hi, hexec⟩⟩ := step_eq_next hstep
  · exact h
  · obtain ⟨ag, rfl⟩ := State.nextTransaction_eq_some hu
    obtain ⟨hs, he⟩ := exec_eq_next hexec
    exact he.inv hi hs (h.of_agenda ag)

end Sys2Proof.Machine
end

section
/-! Proofs about steps in a circuit and in `REF`: instructions that name what the circuit has or lacks, the step that fetches a
control word, and the worked words of 70_reset_and_hazards.md and 95_test_vectors.md. -/

namespace Sys2Proof.Machine

open Sys2Proof

/-! ### Instructions that name a component the circuit has -/

theorem has_iff_exists_comp {s : State} {k : Nat} {d : Kind} :
    s.wiring.shape.has k d = true ↔ ∃ c, s.comps[k]? = some c ∧ c.cfg.kind = d := by
  simp [Shape.has, Wiring.shape, State.wiring]

theorem exists_counter?_of_has {s : State} {k : Nat} (h : s.wiring.shape.has k .counter = true) :
    ∃ c, s.counter? k = some c := by
  obtain ⟨c, hc, hkind⟩ := has_iff_exists_comp.1 h
  cases c with
  | counter c => exact ⟨c, State.counter?_eq_some.2 hc⟩
  | _ => cases hkind

theorem exists_memory?_of_has {s : State} {k : Nat} (h : s.wiring.shape.has k .memory = true) :
    ∃ m, s.memory? k = some m := by
  obtain ⟨c, hc, hkind⟩ := has_iff_exists_comp.1 h
  cases c with
  | memory m => exact ⟨m, State.memory?_eq_some.2 hc⟩
  | _ => cases hkind

theorem exists_alu?_of_has {s : State} {k : Nat} (h : s.wiring.shape.has k .alu = true) : ∃ u, s.alu? k = some u := by
  obtain ⟨c, hc, hkind⟩ := has_iff_exists_comp.1 h
  cases c with
  | alu u => exact ⟨u, State.alu?_eq_some.2 hc⟩
  | _ => cases hkind

theorem exists_reg?_of_hasReg {s : State} {r : RegRef} (h : s.wiring.shape.hasReg r = true) :
    ∃ reg, s.reg? r = some reg := by
  obtain ⟨k, p⟩ := r
  obtain ⟨c, hc, hkind⟩ := has_iff_exists_comp.1 h
  cases p with
  | whole =>
    cases c with
    | register x => exact ⟨_, State.reg?_of_comp hc rfl⟩
    | _ => cases hkind
  | mar =>
    cases c with
    | memory m => exact ⟨_, State.reg?_of_comp hc rfl⟩
    | _ => cases hkind
  | a | b | out =>
    cases c with
    | alu u => exact ⟨_, State.reg?_of_comp hc rfl⟩
    | _ => cases hkind

/-- A meaning that acts on a Memory the circuit has, in a state without a fault. -/
theorem onMemory_of_memory? {s : State} {k : Nat} {m : Memory} (h : s.fault = none) (hm : s.memory? k = some m)
    (act : Memory → Host.Outcome State Fault Refusal) : onMemory s k act = act m := by
  rw [onMemory, live_of_none h, hm]

/-- A row of format CW, well formed in the circuit, performs its micro-operation. -/
theorem exec_of_micro? {i : Instr} {m : Micro} {s : State} (hi : i.micro? = some m) (hs : s.fault = none)
    (hw : i.wf s.wiring.shape = true) : exec i s = .next (s.perform m) := by
  have hreg {r : RegRef} (hr : s.wiring.shape.hasReg r = true) (t : State) : onReg s r (fun _ => .next t) = .next t := by
    obtain ⟨reg, hreg⟩ := exists_reg?_of_hasReg hr
    exact onReg_of_reg? hs hreg _
  have hcounter {k : Nat} (hk : s.wiring.shape.has k .counter = true) (t : State) :
      onCounter s k (fun _ => .next t) = .next t := by
    obtain ⟨c, hc⟩ := exists_counter?_of_has hk
    exact onCounter_of_counter? hs hc _
  have hmemory {k : Nat} (hk : s.wiring.shape.has k .memory = true) (t : State) :
      onMemory s k (fun _ => .next t) = .next t := by
    obtain ⟨m, hm⟩ := exists_memory?_of_has hk
    exact onMemory_of_memory? hs hm _
  have halu {k : Nat} (hk : s.wiring.shape.has k .alu = true) (t : State) :
      onAlu s k (fun _ => .next t) = .next t := by
    obtain ⟨u, hu⟩ := exists_alu?_of_has hk
    exact onAlu_of_alu? hs hu _
  cases i with
  | regLoadR0 | regDriveR0 | regLoadR1 | regDriveR1 | memAddrLoad | aluALoad | aluBLoad | aluOutDrive =>
    cases hi
    refine hreg ?_ _
    exact hw
  | cntLoad | cntInc | cntDrive =>
    cases hi
    exact hcounter hw _
  | memRead | memWrite =>
    cases hi
    exact hmemory hw _
  | aluAdd | aluSub =>
    cases hi
    exact halu hw _
  | _ => cases hi

/-- The register that `ALU.GET` and `ALU.SET` reach is there when the ALU is. -/
theorem hasReg_aluGetTarget (sh : Shape) (k : Nat) (n : Option AluReg) :
    sh.hasReg (aluGetTarget k n) = sh.has k .alu := by
  cases n with
  | none => rfl
  | some n => cases n <;> rfl

/-- Settles O51: an instruction's guard passes on what the circuit has, and a clock command's by the Clock. -/
theorem wellFormedInstructionsComplete : Obligations.WellFormedInstructionsComplete := by
  intro i s hs hw
  have hclock (t : State) : (∃ u, unlessPending s (.next t) = .next u) ∨ s.clk.cycleState ≠ .idle := by
    by_cases hc : s.clk.cycleState = .idle
    · exact .inl ⟨t, unlessPending_of_idle hs hc _⟩
    · exact .inr hc
  cases i with
  | regLoadR0 | regDriveR0 | regLoadR1 | regDriveR1 | cntLoad | cntInc | cntDrive | memAddrLoad | memRead | memWrite
  | aluALoad | aluBLoad | aluOutDrive | aluAdd | aluSub => exact .inl ⟨_, exec_of_micro? rfl hs hw⟩
  | clkStep => exact (hclock _).imp_right fun hc => .inl ⟨.inl rfl, hc⟩
  | clkStart => exact (hclock _).imp_right fun hc => .inl ⟨.inr (.inl rfl), hc⟩
  | clkStop => exact (hclock _).imp_right fun hc => .inl ⟨.inr (.inr (.inl rfl)), hc⟩
  | clkSetInterval ms => exact (hclock _).imp_right fun hc => .inl ⟨.inr (.inr (.inr ⟨ms, rfl⟩)), hc⟩
  | clkCycle =>
    by_cases hc : s.clk.cycleState = .idle
    · cases hp : s.clk.phase with
      | low => exact .inl ⟨_, exec_clkCycle_of_low hs hc hp⟩
      | high => exact .inr (.inr (.inl ⟨rfl, hc, rfl⟩))
    · exact .inl ⟨_, exec_clkCycle_of_pending hs hc⟩
  | clkTick =>
    cases hr : s.clk.running with
    | true => exact .inl ⟨_, exec_clkTick_of_running hs hr⟩
    | false => exact .inr (.inr (.inr (.inl ⟨rfl, rfl⟩)))
  | clkCycleFall =>
    by_cases hc : s.clk.cycleState = .pendingFall
    · exact .inl ⟨_, exec_clkCycleFall_of_pendingFall hs hc⟩
    · exact .inr (.inr (.inr (.inr ⟨rfl, hc⟩)))
  | clkAddRising | clkAddFalling | busGet | busSet | busRead | gateAnd | gateOr | gateNand | gateNor | gateXor | fullAdd =>
    exact .inl ⟨_, live_of_none hs _⟩
  | busAssign b v => exact .inl ⟨_, (live_of_none hs _).trans (if_pos hw)⟩
  | regGet r j | regSet r j v =>
    obtain ⟨reg, hreg⟩ := exists_reg?_of_hasReg hw
    exact .inl ⟨_, onReg_of_reg? hs hreg _⟩
  | cntGet k j | cntSet k j v =>
    obtain ⟨c, hc⟩ := exists_counter?_of_has hw
    exact .inl ⟨_, onCounter_of_counter? hs hc _⟩
  | memGet k j | memSet k j v =>
    obtain ⟨m, hm⟩ := exists_memory?_of_has hw
    exact .inl ⟨_, onMemory_of_memory? hs hm _⟩
  | aluGet k n j =>
    obtain ⟨reg, hreg⟩ := exists_reg?_of_hasReg ((hasReg_aluGetTarget _ k n).trans hw)
    exact .inl ⟨_, onReg_of_reg? hs hreg _⟩
  | aluSet k n j v =>
    obtain ⟨halu, hnamed⟩ := Bool.and_eq_true_iff.1 hw
    obtain ⟨n, rfl⟩ := Option.isSome_iff_exists.1 hnamed
    obtain ⟨reg, hreg⟩ := exists_reg?_of_hasReg ((hasReg_aluGetTarget _ k (some n)).trans halu)
    exact .inl ⟨_, onReg_of_reg? hs hreg _⟩

/-! ### Instructions that name a component the circuit lacks (assumption 7) -/

section
variable {s : State} (h : s.fault = none)
include h

theorem onReg_of_reg?_eq_none {r : RegRef} (hr : s.reg? r = none) (k : Register → Host.Outcome State Fault Refusal) :
    onReg s r k = .refused (.noSuchComponent r.comp) := by
  rw [onReg, live_of_none h, hr]

theorem onCounter_of_counter?_eq_none {k : Nat} (hc : s.counter? k = none)
    (act : Counter → Host.Outcome State Fault Refusal) : onCounter s k act = .refused (.noSuchComponent k) := by
  rw [onCounter, live_of_none h, hc]

theorem onMemory_of_memory?_eq_none {k : Nat} (hm : s.memory? k = none)
    (act : Memory → Host.Outcome State Fault Refusal) : onMemory s k act = .refused (.noSuchComponent k) := by
  rw [onMemory, live_of_none h, hm]

end

theorem Component.kind_of_reg? {c : Component} {p : RegPart} {reg : Register} (h : c.reg? p = some reg) :
    c.cfg.kind = p.kind := by
  cases p with
  | whole =>
    cases c with
    | register x => rfl
    | _ => cases h
  | mar =>
    cases c with
    | memory m => rfl
    | _ => cases h
  | a | b | out =>
    cases c with
    | alu u => rfl
    | _ => cases h

/-- Without the ALU there is none of its registers. -/
theorem reg?_aluGetTarget_eq_none {s : State} {k : Nat} (h : s.alu? k = none) (n : Option AluReg) :
    s.reg? (aluGetTarget k n) = none := by
  by_contra hne
  obtain ⟨reg, hreg⟩ := Option.ne_none_iff_exists'.1 hne
  obtain ⟨c, hc, hr⟩ := State.reg?_eq_some.1 hreg
  have halu := (hasReg_aluGetTarget _ k n).symm.trans (has_iff_exists_comp.2 ⟨c, hc, Component.kind_of_reg? hr⟩)
  obtain ⟨u, hu⟩ := exists_alu?_of_has halu
  rw [h] at hu
  cases hu

theorem onReg_aluGetTarget_of_alu?_eq_none {s : State} {k : Nat} (h : s.fault = none) (hu : s.alu? k = none)
    (n : Option AluReg) (act : Register → Host.Outcome State Fault Refusal) :
    onReg s (aluGetTarget k n) act = .refused (.noSuchComponent k) := by
  rw [onReg_of_reg?_eq_none h (reg?_aluGetTarget_eq_none hu n)]
  cases n <;> rfl

/-- Settles O52: each accessor at the guard that finds nothing. -/
theorem missingComponentsAreRefused : Obligations.MissingComponentsAreRefused := fun _ _ _ _ h =>
  ⟨fun _ hr => ⟨onReg_of_reg?_eq_none h hr _, onReg_of_reg?_eq_none h hr _⟩,
    fun hc => ⟨onCounter_of_counter?_eq_none h hc _, onCounter_of_counter?_eq_none h hc _⟩,
    fun hm => ⟨onMemory_of_memory?_eq_none h hm _, onMemory_of_memory?_eq_none h hm _⟩,
    fun hu => ⟨fun n => onReg_aluGetTarget_of_alu?_eq_none h hu n _,
      fun n => onReg_aluGetTarget_of_alu?_eq_none h hu (some n) _⟩⟩

/-! ### One step (R10, R188) -/

theorem step_of_nextTransaction {s t : State} {i : Instr} (h : s.fault = none) (hn : s.nextTransaction = some (i, t)) :
    step s = if isTransaction i then exec i t else .refused .notATransaction := by
  rw [step, h]
  simp only [hn]

/-- Settles O41: the step by which transaction is next. -/
theorem stepPerformsTheNextTransaction : Obligations.StepPerformsTheNextTransaction := by
  intro s h
  have hagenda {i : Instr} {rest : List Instr} (ha : s.agenda = i :: rest) :
      s.nextTransaction = some (i, { s with agenda := rest }) := by
    rw [State.nextTransaction, ha]
  refine ⟨fun i rest ha hi => ?_, fun i rest ha hi => ?_, fun ha hr => ?_, fun ha hr hc => ?_, fun ha hr hc => ?_⟩
  · rw [step_of_nextTransaction h (hagenda ha), if_pos hi]
  · rw [step_of_nextTransaction h (hagenda ha), hi, if_neg Bool.false_ne_true]
  · have hn : s.nextTransaction = some (.clkTick, s) := by simp [State.nextTransaction, ha, hr]
    rw [step_of_nextTransaction h hn]
    rfl
  · have hn : s.nextTransaction = some (.clkCycleFall, s) := by simp [State.nextTransaction, ha, hr, hc]
    rw [step_of_nextTransaction h hn]
    rfl
  · have hn : s.nextTransaction = none := by simp [State.nextTransaction, ha, hr, hc]
    rw [step, h]
    simp only [hn]

theorem exec_of_fault {s : State} {f : Fault} (h : s.fault = some f) (i : Instr) : exec i s = .fault f := by
  cases i with
  | aluSet k n j v => cases n <;> exact live_of_some h _
  | _ => exact live_of_some h _

/-- Settles O44: every meaning begins with the same guard. -/
theorem faultIsSticky : Obligations.FaultIsSticky := fun s f h => ⟨by rw [step, h], exec_of_fault h⟩

/-! ### The step that fetches a control word in `REF` (R73, R78) -/

/-- Every row is well formed in `REF`. -/
theorem wf_ref_of_micro? {i : Instr} {m : Micro} (h : i.micro? = some m) : i.wf Config.ref.shape = true := by
  cases i with
  | regLoadR0 | regDriveR0 | regLoadR1 | regDriveR1 | cntLoad | cntInc | cntDrive | memAddrLoad | memRead | memWrite
  | aluALoad | aluBLoad | aluOutDrive | aluAdd | aluSub => rfl
  | _ => cases h

theorem forall_mem_gated {w : Word} {l : Line} {m : Micro} {P : Micro → Prop} (h : P m) : ∀ n ∈ gated w l m, P n := by
  intro n hn
  obtain ⟨-, rfl⟩ := mem_gated.1 hn
  exact h

/-- Every micro-operation of a control word in `REF` is a row. -/
theorem isSome_row?_of_mem_decode_ref (w : Word) :
    ∀ m ∈ decode Config.ref (Wiring.handlers Config.ref) w, m.row?.isSome = true := by
  have hrecompute : (if w.getLsbD 13 then Micro.aluSub 2 else Micro.aluAdd 2).row?.isSome = true := by split <;> rfl
  simp only [decode_ref, List.forall_mem_append, List.forall_mem_singleton, hrecompute, and_true]
  and_intros <;> exact forall_mem_gated rfl

theorem execAll_cons {i : Instr} {is : List Instr} {s t : State} (h : exec i s = .next t) (ht : t.fault = none) :
    execAll (i :: is) s = execAll is t := by
  simp only [execAll, h, ht]

theorem execAll_cons_fault {i : Instr} {is : List Instr} {s t : State} {f : Fault} (h : exec i s = .next t)
    (ht : t.fault = some f) : execAll (i :: is) s = .next t := by
  simp only [execAll, h, ht]

/-- Executing the rows of micro-operations of `REF` performs the micro-operations. -/
theorem execAll_filterMap_row? {ms : List Micro} {s : State} (hs : s.fault = none) (hw : s.wiring = Config.ref)
    (hrow : ∀ m ∈ ms, m.row?.isSome = true) : execAll (ms.filterMap Micro.row?) s = .next (performAll ms s) := by
  induction ms generalizing s with
  | nil => rfl
  | cons m ms ih =>
    obtain ⟨i, hi⟩ := Option.isSome_iff_exists.1 (hrow m List.mem_cons_self)
    have hmicro := Micro.row?_micro? hi
    have hexec := exec_of_micro? hmicro hs (by rw [hw]; exact wf_ref_of_micro? hmicro)
    rw [List.filterMap_cons_some hi]
    cases hf : (s.perform m).fault with
    | none =>
      rw [performAll_cons hf, execAll_cons hexec hf]
      exact ih hf ((Frame.perform s m).wiring.trans hw) fun n hn => hrow n (List.mem_cons_of_mem m hn)
    | some f => rw [performAll_cons_fault hf, execAll_cons_fault hexec hf]

/-- The state in which a fetched control word's edge begins. -/
def State.fetched (s : State) (w : Word) : State :=
  { s with cbus := w, clk := { s.clk with phase := .high, cycleState := .idle }, reply := .nothing, notified := [] }

/-- The step that fetches a control word in `REF` performs the decoded word; only a failure shows in the reply. -/
theorem step_withFetchWord_ref {s : State} (hs : s.fault = none) (h : s.isRef) (w : Word) :
    ∃ r, step (s.withFetchWord 32 w.toNat) =
        .next { performAll (decode Config.ref (Wiring.handlers Config.ref) w) (s.fetched w) with reply := r } ∧
      ((performAll (decode Config.ref (Wiring.handlers Config.ref) w) (s.fetched w)).fault = none → r = .nothing) := by
  have hw : BitVec.ofNat 32 (w.toNat % 2 ^ 32) = w := by rw [Nat.mod_eq_of_lt w.isLt, BitVec.ofNat_toNat, BitVec.setWidth_eq]
  obtain ⟨r, n, heq, hn, hok⟩ := State.dispatchFrom_eq (Wiring.handlers Config.ref) 0 (s := s.fetched w) hs
  rw [Wiring.handlers, observerOf_handlers] at hn
  obtain rfl := List.prefix_nil.1 hn
  have hwiring : (s.fetched w).wiring = Config.ref := h.wiring
  rw [hwiring, List.append_nil] at heq
  rw [hwiring] at hok
  refine ⟨r, ?_, fun hf => (hok hf).1⟩
  rw [step_withFetchWord hs, h.rising, hw]
  refine congrArg Host.Outcome.next (heq.trans ?_)
  rw [← (Frame.performAll _ (s.fetched w)).notified]
  rfl

/-- Settles O43: executing the decoded rows and the fetching step both perform the decoded word. -/
theorem stepExecutesTheFetchedWord : Obligations.StepExecutesTheFetchedWord := by
  intro s w hs h
  obtain ⟨r, hstep, hok⟩ := step_withFetchWord_ref hs h w
  exact ⟨_, r, execAll_filterMap_row? (s := s.fetched w) hs h.wiring (isSome_row?_of_mem_decode_ref w), hstep, hok⟩

/-! ### Worked words (program P6, R203, R210) -/

/-- A core handler under a fetched control word in `REF`. -/
theorem State.invoke_fetched {s : State} (hs : s.fault = none) (h : s.isRef) (w : Word) {x : Subscriber}
    (hx : ∀ cb, x ≠ .observer cb) : (s.fetched w).invoke x = performAll (x.select Config.ref w) (s.fetched w) := by
  have hwiring : (s.fetched w).wiring = Config.ref := h.wiring
  rw [State.invoke_eq_performAll (s := s.fetched w) hs hx, hwiring]
  rfl

/-- Settles O45: the counter and the address register do nothing, and the cells, third, take the fault. -/
theorem faultAbortsTheEdge : Obligations.FaultAbortsTheEdge := by
  intro s m hs h hm ha
  have hcounter : (s.fetched 0x101#32).invoke (.counter 0) = s.fetched 0x101#32 :=
    State.invoke_fetched hs h _ (by simp)
  have hmar : (s.fetched 0x101#32).invoke (.reg ⟨1, .mar⟩) = s.fetched 0x101#32 :=
    State.invoke_fetched hs h _ (by simp)
  have hsize : m.cfg.size ≤ m.mar.toNat := by
    obtain ⟨v, mar, cells, a, b, out, x, y, hcomps⟩ := h.comps_eq
    rw [hcomps] at hm
    cases hm
    exact ha
  have hread : (s.fetched 0x101#32).perform (.memRead 1) =
      (s.fetched 0x101#32).raise (.invalidMemoryAddress m.mar.toNat) :=
    State.withCell_fault (s := s.fetched 0x101#32) (State.memory?_eq_some.2 hm) hsize (fun t => t.fetchCell 1)
  have hcells : (s.fetched 0x101#32).invoke (.cells 1) =
      { s.fetched 0x101#32 with fault := some (.invalidMemoryAddress m.mar.toNat) } := by
    have hselect : Subscriber.select Config.ref 0x101#32 (.cells 1) = [.memRead 1] := by decide
    rw [State.invoke_fetched hs h _ (by simp), hselect, performAll_single, hread, State.raise_fault_of_none (s.fetched _) _ hs]
  rw [step_withFetchWord hs, h.rising]
  refine congrArg Host.Outcome.next ?_
  show State.dispatchFrom 0 (.counter 0 :: .reg ⟨1, .mar⟩ :: .cells 1 :: _) (s.fetched 0x101#32) = _
  rw [State.dispatchFrom_cons (by rw [hcounter]; exact hs), hcounter,
    State.dispatchFrom_cons (by rw [hmar]; exact hs), hmar,
    State.dispatchFrom_cons_fault (by rw [hcells]), hcells]
  rfl

/-- Micro-operations other than a Memory's access, performed one after another, record no fault. -/
theorem performAll_of_no_access {ms : List Micro} {s : State} (hs : s.fault = none)
    (hw : ∀ k, .memWrite k ∉ ms) (hr : ∀ k, .memRead k ∉ ms) :
    performAll ms s = ms.foldl State.perform s ∧ (ms.foldl State.perform s).fault = none := by
  induction ms generalizing s with
  | nil => exact ⟨rfl, hs⟩
  | cons m ms ih =>
    have hm : (s.perform m).fault = none :=
      (State.perform_fault (fun k e => hw k (e ▸ List.mem_cons_self)) fun k e => hr k (e ▸ List.mem_cons_self)).trans hs
    rw [performAll_cons hm, List.foldl_cons]
    exact ih hm (fun k hk => hw k (List.mem_cons_of_mem m hk)) fun k hk => hr k (List.mem_cons_of_mem m hk)

/-- The step that fetches a word whose micro-operations access no Memory performs them all. -/
theorem step_withFetchWord_ref_of_no_access {s : State} (hs : s.fault = none) (h : s.isRef) {w : Word} {ms : List Micro}
    (hms : decode Config.ref (Wiring.handlers Config.ref) w = ms) (hw : ∀ k, .memWrite k ∉ ms)
    (hr : ∀ k, .memRead k ∉ ms) :
    ∃ r, step (s.withFetchWord 32 w.toNat) = .next { ms.foldl State.perform (s.fetched w) with reply := r } ∧
      (ms.foldl State.perform (s.fetched w)).fault = none := by
  obtain ⟨r, hstep, -⟩ := step_withFetchWord_ref hs h w
  obtain ⟨heq, hfault⟩ := performAll_of_no_access (s := s.fetched w) hs hw hr
  rw [hms, heq] at hstep
  exact ⟨r, hstep, hfault⟩

/-- Settles O48: `A` takes the bus before `OUT` is driven onto it, and the recompute comes last. -/
theorem aluLatencyIsOneEdge : Obligations.AluLatencyIsOneEdge := by
  intro s u hs h hu
  obtain ⟨r, hstep, hfault⟩ := step_withFetchWord_ref_of_no_access (w := 0x1400#32)
    (ms := [.regLoad ⟨2, .a⟩, .regDrive ⟨2, .out⟩, .aluAdd 2]) hs h (by decide) (by simp) (by simp)
  have hend : [.regLoad ⟨2, .a⟩, .regDrive ⟨2, .out⟩, .aluAdd 2].foldl State.perform (s.fetched 0x1400#32) =
      ((s.fetched 0x1400#32).setDbus (u.out.setWidth 32)).setComp 2 (.alu { u with
        a := s.dbus.setWidth u.cfg.width, out := s.dbus.setWidth u.cfg.width + u.b }) := by
    obtain ⟨hlt, hget⟩ := List.getElem?_eq_some_iff.1 hu
    simp [State.fetched, State.perform, State.loadReg, State.updateReg, State.driveReg, State.reg?, State.recompute,
      State.alu?, hlt, hget, Component.updateReg, Component.reg?, recomputed_eq, fromBus, toBus, State.setComp,
      State.setDbus]
  rw [hend] at hstep hfault
  exact ⟨_, hstep, hfault, rfl, State.setComp_comps_self _ 2 _ _ hu, fun k hk => State.setComp_comps_ne _ 2 k _ hk⟩

/-- Settles O47: in both words the recompute comes first, then `R0`'s line and then `R1`'s. -/
theorem driverBeforeLoader : Obligations.DriverBeforeLoader := by
  intro s x y hs h hx hy
  obtain ⟨v, mar, cells, a, b, out, x', y', hcomps⟩ := h.comps_eq
  rw [hcomps] at hx hy ⊢
  cases hx
  cases hy
  constructor
  · obtain ⟨r, hstep, hfault⟩ := step_withFetchWord_ref_of_no_access (w := 0x6#32)
      (ms := [.aluAdd 2, .regDrive ⟨3, .whole⟩, .regLoad ⟨4, .whole⟩]) hs h (by decide) (by simp) (by simp)
    refine ⟨_, hstep, hfault, ?_⟩
    simp [State.fetched, State.perform, State.loadReg, State.updateReg, State.driveReg, State.reg?, State.recompute,
      State.alu?, hcomps, Component.updateReg, Component.reg?, recomputed_eq, fromBus, toBus]
  · obtain ⟨r, hstep, hfault⟩ := step_withFetchWord_ref_of_no_access (w := 0x9#32)
      (ms := [.aluAdd 2, .regLoad ⟨3, .whole⟩, .regDrive ⟨4, .whole⟩]) hs h (by decide) (by simp) (by simp)
    refine ⟨_, hstep, hfault, ?_⟩
    simp [State.fetched, State.perform, State.loadReg, State.updateReg, State.driveReg, State.reg?, State.recompute,
      State.alu?, hcomps, Component.updateReg, Component.reg?, recomputed_eq, fromBus, toBus]

end Sys2Proof.Machine
end

section
/-! Proofs for 40_gates.md and 41_bus.md: the lookup constants, and reading and writing a bus. -/

namespace Sys2Proof.Machine

open Sys2Proof

/-- Settles O3: the eight rows are evaluated. -/
theorem lookupConstantsHoldTheTables : Obligations.LookupConstantsHoldTheTables := by
  unfold Obligations.LookupConstantsHoldTheTables
  decide

section
variable {s : State} (h : s.fault = none) (b : BusId)
include h

theorem exec_busGet (i : Int) : exec (.busGet b i) s = .next (s.answer (replyOfBit (getBit (s.bus b) i))) :=
  live_of_none h _

theorem exec_busSet (i : Int) (v : Option Int) : exec (.busSet b i v) s = .next (s.setBusLine b i v) :=
  live_of_none h _

theorem exec_busSet_of_inRange {i : Int} (hi : inRange i 32) (v : Option Int) :
    exec (.busSet b i v) s = .next ((s.setBus b (setBitAt (s.bus b) i.toNat v)).answer .nothing) := by
  rw [exec_busSet h, State.setBusLine, Config.busLines, bitIndex?_of_inRange hi]

theorem exec_busSet_of_not_inRange {i : Int} (hi : ¬ inRange i 32) (v : Option Int) :
    exec (.busSet b i v) s = .next (s.answer .noValue) := by
  rw [exec_busSet h, State.setBusLine, Config.busLines, bitIndex?_of_not_inRange hi]

theorem exec_busAssign (v : Int) : exec (.busAssign b v) s =
    if assignable v then .next ((s.setBus b (BitVec.ofInt 32 v)).answer .nothing) else .refused (.assignOutOfRange v) :=
  live_of_none h _

end

theorem assignable_iff {v : Int} : assignable v = true ↔ 0 ≤ v ∧ v < 4294967296 := by
  simp [assignable]

/-- Settles O6: in range one line is set by the rule of the value, out of range nothing is. -/
theorem busSetChangesOneLine : Obligations.BusSetChangesOneLine := by
  intro b i v s h
  refine ⟨fun hi => ?_, fun hi => exec_busSet_of_not_inRange h b hi v⟩
  obtain ⟨hbit, hothers⟩ := setBitAt_setsBit (s.bus b) i v hi
  exact ⟨_, exec_busSet_of_inRange h b hi v, hbit, hothers⟩

/-- Settles O4: the reply is the line's bit exactly in range. -/
theorem busGetReadsOneLine : Obligations.BusGetReadsOneLine := by
  intro b i s h
  rw [exec_busGet h]
  refine ⟨fun hi => ?_, fun hi => ?_⟩
  · rw [getBit_of_inRange _ hi]
    rfl
  · rw [getBit_of_not_inRange _ hi]
    rfl

/-- Settles O7: an assignable value is the number of the word that replaces the bus. -/
theorem busAssignReplacesTheValue : Obligations.BusAssignReplacesTheValue := by
  intro b v s h
  rw [exec_busAssign h]
  refine ⟨fun h0 hlt => ⟨BitVec.ofInt 32 v, ?_, if_pos (assignable_iff.2 ⟨h0, hlt⟩)⟩, fun hv => if_neg ?_⟩
  · rw [BitVec.toNat_ofInt]
    omega
  · rw [assignable_iff]
    omega

end Sys2Proof.Machine
end

section
/-! Proofs for 43_register.md and 44_counter.md: a `SET` of a register, the handlers of a Register and a Counter, the Counter's
rows and accessors. -/

namespace Sys2Proof.Machine

open Sys2Proof

/-! ### Registers (R131, R136) -/

section
variable {s : State} {r : RegRef} {reg : Register} {i : Int} (h : s.fault = none) (hr : s.reg? r = some reg)
include h hr

theorem exec_regSet (i : Int) (v : Option Int) : exec (.regSet r i v) s = .next (s.setRegBit r reg i v) :=
  onReg_of_reg? h hr _

theorem exec_regSet_of_inRange (hi : inRange i reg.cfg.width) (v : Option Int) :
    exec (.regSet r i v) s = .next ((s.updateReg r fun _ x => setBitAt x i.toNat v).answer .nothing) := by
  rw [exec_regSet h hr, State.setRegBit, bitIndex?_of_inRange hi]

theorem exec_regSet_of_not_inRange (hi : ¬ inRange i reg.cfg.width) (v : Option Int) :
    exec (.regSet r i v) s = .next (s.answer .noValue) := by
  rw [exec_regSet h hr, State.setRegBit, bitIndex?_of_not_inRange hi]

end

/-- Settles O22: in range the register is updated, which touches no other register, counter or cell. -/
theorem regSetChangesOneBit : Obligations.RegSetChangesOneBit := by
  intro r i v s reg h hr
  refine ⟨fun hi => ?_, fun hi => exec_regSet_of_not_inRange h hr hi v⟩
  obtain ⟨hbit, hothers⟩ := setBitAt_setsBit reg.value i v hi
  refine ⟨_, setBitAt reg.value i.toNat v, exec_regSet_of_inRange h hr hi v, State.reg?_updateReg _ hr, hbit, hothers,
    fun r' hne => State.reg?_updateReg_ne _ hne, fun k => State.counter?_updateReg _, fun k a => State.cellAt_updateReg _,
    State.wiring_updateReg s r _, ?_⟩
  rw [State.updateReg_rest]
  rfl

/-- What a load does to the register, and what it leaves alone (R133). -/
theorem State.loadReg_spec {s : State} {r : RegRef} {reg : Register} (hr : s.reg? r = some reg) :
    (s.loadReg r).dbus = s.dbus ∧ (s.loadReg r).reg? r = some { reg with value := fromBus reg.cfg.width s.dbus } ∧
    (∀ r', r' ≠ r → (s.loadReg r).reg? r' = s.reg? r') ∧ (s.loadReg r).fault = s.fault := by
  refine ⟨?_, State.reg?_updateReg _ hr, fun r' hne => State.reg?_updateReg_ne _ hne, ?_⟩
  · rw [State.loadReg, State.updateReg_rest]
  · rw [State.loadReg, State.updateReg_rest]

/-- The handler of a Register the circuit has. -/
theorem State.registerHandler_eq {s : State} {r : RegRef} {reg : Register} (hr : s.reg? r = some reg) :
    s.registerHandler r =
      if lineAsserted s.cbus reg.cfg.loadIndex
      then (if lineAsserted s.cbus reg.cfg.driveIndex then s.setDbus (toBus reg.value) else s).loadReg r
      else if lineAsserted s.cbus reg.cfg.driveIndex then s.setDbus (toBus reg.value) else s := by
  simp only [State.registerHandler, hr, State.driveReg_eq hr, State.asserted]
  cases lineAsserted s.cbus reg.cfg.driveIndex <;> rfl

/-- Settles O23: a load after a drive takes back the register's own value. -/
theorem registerHandlerDrivesBeforeItLoads : Obligations.RegisterHandlerDrivesBeforeItLoads := by
  intro s r reg hr hwidth
  have hdriven : (s.setDbus (toBus reg.value)).reg? r = some reg := hr
  dsimp only
  rw [State.invoke, State.registerHandler_eq hr]
  cases lineAsserted s.cbus reg.cfg.driveIndex with
  | false =>
    cases lineAsserted s.cbus reg.cfg.loadIndex with
    | false => exact ⟨rfl, hr, fun _ _ => rfl, rfl⟩
    | true => exact State.loadReg_spec hr
  | true =>
    cases lineAsserted s.cbus reg.cfg.loadIndex with
    | false => exact ⟨rfl, hr, fun _ _ => rfl, rfl⟩
    | true =>
      have hload := State.loadReg_spec hdriven
      rw [State.setDbus_dbus, fromBus_toBus reg.value hwidth] at hload
      exact hload

/-! ### Counters (R141 to R147) -/

section
variable {s : State} {k : Nat} {c : Counter} {i : Int} (h : s.fault = none) (hc : s.counter? k = some c)
include h hc

theorem exec_cntGet : exec (.cntGet k i) s = .next (s.answer (replyOfBit (getBit c.value i))) :=
  onCounter_of_counter? h hc _

theorem exec_cntSet (v : Option Int) : exec (.cntSet k i v) s = .next (s.setCounterBit k c i v) :=
  onCounter_of_counter? h hc _

theorem exec_cntSet_of_inRange (hi : inRange i c.cfg.width) (v : Option Int) : exec (.cntSet k i v) s =
    .next ((s.setComp k (.counter { c with value := setBitAt c.value i.toNat v })).answer .nothing) := by
  rw [exec_cntSet h hc, State.setCounterBit, bitIndex?_of_inRange hi]

theorem exec_cntSet_of_not_inRange (hi : ¬ inRange i c.cfg.width) (v : Option Int) :
    exec (.cntSet k i v) s = .next (s.answer .noValue) := by
  rw [exec_cntSet h hc, State.setCounterBit, bitIndex?_of_not_inRange hi]

end

theorem exec_cntInc {s : State} {c : Counter} (h : s.fault = none) (hc : s.counter? Config.refCnt = some c) :
    exec .cntInc s = .next (s.setComp Config.refCnt (.counter { c with value := c.value + 1#c.cfg.width })) := by
  rw [← State.incCounter_eq hc]
  exact onCounter_of_counter? h hc _

theorem exec_cntDrive {s : State} {c : Counter} (h : s.fault = none) (hc : s.counter? Config.refCnt = some c) :
    exec .cntDrive s = .next (s.setDbus (toBus c.value)) := by
  rw [← State.driveCounter_eq hc]
  exact onCounter_of_counter? h hc _

theorem toNat_add_one {w : Nat} (v : BitVec w) : (v + 1#w).toNat = (v.toNat + 1) % 2 ^ w := by
  rw [BitVec.toNat_add, BitVec.toNat_ofNat, Nat.add_mod_mod]

/-- Settles O25: the chain adds 1, which wraps. -/
theorem counterIncrementAddsOne : Obligations.CounterIncrementAddsOne := by
  intro s c h hc
  refine ⟨_, exec_cntInc h (State.counter?_eq_some.2 hc), toNat_add_one c.value, fun hmax => ?_, by decide⟩
  rw [toNat_add_one, hmax, Nat.sub_add_cancel Nat.one_le_two_pow, Nat.mod_self]

/-- Settles O26: the row drives the Counter's zero-extended value, which has no line from its width up. -/
theorem counterDriveReplacesTheBus : Obligations.CounterDriveReplacesTheBus := fun _ c h hc =>
  ⟨exec_cntDrive h (State.counter?_eq_some.2 hc), by decide, fun _ => getLsbD_toBus_of_le c.value⟩

theorem State.setComp_self {s : State} {k : Nat} {d : Component} (h : s.comps[k]? = some d) : s.setComp k d = s := by
  obtain ⟨hk, rfl⟩ := List.getElem?_eq_some_iff.1 h
  rw [State.setComp, List.set_getElem_self]

theorem State.setComp_setComp (s : State) (k : Nat) (c d : Component) :
    (s.setComp k c).setComp k d = s.setComp k d := by
  simp [State.setComp]

theorem State.counter?_setComp {s : State} {k : Nat} {c : Counter} (hc : s.comps[k]? = some (.counter c))
    (v : BitVec c.cfg.width) : (s.setComp k (.counter { c with value := v })).counter? k = some { c with value := v } :=
  State.counter?_eq_some.2 (State.setComp_comps_self s k _ _ hc)

section
variable {s : State} {k : Nat} {c : Counter} (hc : s.comps[k]? = some (.counter c)) (asserted : Bool)
  (v : BitVec c.cfg.width)
include hc

/-- The three actions of a Counter's handler, each gated by its line (R142 to R144). -/
theorem State.gatedLoadCounter_eq : (if asserted then s.loadCounter k else s) =
    s.setComp k (.counter { c with value := if asserted then fromBus c.cfg.width s.dbus else c.value }) := by
  cases asserted with
  | false => exact (State.setComp_self hc).symm
  | true => exact State.loadCounter_eq (State.counter?_eq_some.2 hc)

theorem State.gatedIncCounter_eq :
    (if asserted then (s.setComp k (.counter { c with value := v })).incCounter k
      else s.setComp k (.counter { c with value := v })) =
    s.setComp k (.counter { c with value := if asserted then v + 1#c.cfg.width else v }) := by
  cases asserted with
  | false => rfl
  | true => exact (State.incCounter_eq (State.counter?_setComp hc v)).trans (State.setComp_setComp s k _ _)

theorem State.gatedDriveCounter_eq :
    (if asserted then (s.setComp k (.counter { c with value := v })).driveCounter k
      else s.setComp k (.counter { c with value := v })) =
    { s.setComp k (.counter { c with value := v }) with dbus := if asserted then toBus v else s.dbus } := by
  cases asserted with
  | false => rfl
  | true => exact State.driveCounter_eq (State.counter?_setComp hc v)

end

/-- Settles O27: the three gated actions one after another. -/
theorem counterHandlerComposesLeftToRight : Obligations.CounterHandlerComposesLeftToRight := by
  intro s k c hc
  simp only [State.invoke, State.counterHandler, State.counter?_eq_some.2 hc, State.asserted]
  rw [State.gatedLoadCounter_eq hc, State.setComp_cbus, State.gatedIncCounter_eq hc, State.setComp_cbus,
    State.gatedDriveCounter_eq hc]
  rfl

/-- Settles O28: in range the bit is read, or set by the rule of the value; out of range neither. -/
theorem counterAccessors : Obligations.CounterAccessors := by
  intro k i v s c h hk
  have hc := State.counter?_eq_some.2 hk
  rw [exec_cntGet h hc]
  refine ⟨fun hi => ?_, fun hi => ?_⟩
  · obtain ⟨hbit, hothers⟩ := setBitAt_setsBit c.value i v hi
    rw [getBit_of_inRange _ hi]
    exact ⟨rfl, _, exec_cntSet_of_inRange h hc hi v, hbit, hothers⟩
  · rw [getBit_of_not_inRange _ hi]
    exact ⟨rfl, exec_cntSet_of_not_inRange h hc hi v⟩

end Sys2Proof.Machine
end

section
/-! Proofs for 45_memory_ops.md and section 4 of 46_alu.md: the rows, the cell handler and the accessors of a Memory, and the
accessors of an ALU. -/

namespace Sys2Proof.Machine

open Sys2Proof

/-! ### The rows of a Memory (R153, R154, R156) -/

/-- A read after a write, at any address. -/
theorem cellsRead_cellsWrite {w : Nat} {l : List (Nat × BitVec w)} (hl : cellsCanonical l) (a : Nat) (v : BitVec w)
    (a' : Nat) : cellsRead (cellsWrite l a v) a' = if a' = a then v else cellsRead l a' := by
  split
  · subst a'
    exact cellsRead_cellsWrite_self hl a v
  · exact cellsRead_cellsWrite_ne l a a' v ‹_›

section
variable {s : State} {m : Memory} (h : s.fault = none) (hm : s.memory? Config.refMem = some m)
include h hm

theorem exec_memWrite : exec .memWrite s = .next (s.withCell Config.refMem fun t => t.storeCell Config.refMem) :=
  onMemory_of_memory? h hm _

theorem exec_memRead : exec .memRead s = .next (s.withCell Config.refMem fun t => t.fetchCell Config.refMem) :=
  onMemory_of_memory? h hm _

end

/-- Settles O29: the store of an addressed cell, read back at every address. -/
theorem memWriteStoresOneCell : Obligations.MemWriteStoresOneCell := by
  intro s m h hc hwf ha
  have hm := State.memory?_eq_some.2 hc
  refine ⟨cellsWrite m.cells m.mar.toNat (fromBus m.cfg.width s.dbus), ?_, cellsRead_cellsWrite hwf.1 _ _,
    Memory.wf_writeCell hwf ha _, by decide⟩
  rw [exec_memWrite h hm, State.withCell_addressed hm ha, State.storeCell_eq hm]
  rfl

/-- Settles O30: the drive of an addressed cell, which has no line from the width up. -/
theorem memReadDrivesTheCell : Obligations.MemReadDrivesTheCell := by
  intro s m h hc ha
  have hm := State.memory?_eq_some.2 hc
  refine ⟨?_, by decide, fun _ => getLsbD_toBus_of_le (cellsRead m.cells m.mar.toNat)⟩
  rw [exec_memRead h hm, State.withCell_addressed hm ha, State.fetchCell_eq hm]
  rfl

/-! ### The accessors of a Memory (R157, R158) -/

section
variable {s : State} {m : Memory} {i : Int}

theorem State.hostCell_of_not_inRange (hi : ¬ inRange i m.cfg.width) (act : Nat → State) :
    s.hostCell m i act = s.answer .noValue := by
  rw [State.hostCell, bitIndex?_of_not_inRange hi]

theorem State.hostCell_addressed (hi : inRange i m.cfg.width) (ha : m.mar.toNat < m.cfg.size) (act : Nat → State) :
    s.hostCell m i act = act i.toNat := by
  simp [State.hostCell, bitIndex?_of_inRange hi, Memory.addressed, ha]

theorem State.hostCell_fault (h : s.fault = none) (hi : inRange i m.cfg.width) (ha : m.cfg.size ≤ m.mar.toNat)
    (act : Nat → State) : s.hostCell m i act = { s with
      fault := some (.invalidMemoryAddress m.mar.toNat), reply := .raised (.invalidMemoryAddress m.mar.toNat),
      notified := [] } := by
  have hna : ¬ m.mar.toNat < m.cfg.size := Nat.not_lt.2 ha
  simp [State.hostCell, bitIndex?_of_inRange hi, Memory.addressed, hna, State.raise_fault_of_none s _ h, State.answer,
    Memory.addressFault]

end

section
variable {s : State} {k : Nat} {m : Memory} (h : s.fault = none) (hm : s.memory? k = some m) (i : Int)
include h hm

theorem exec_memGet : exec (.memGet k i) s =
    .next (s.hostCell m i fun n => s.answer (.bit ((m.readCell m.mar.toNat).getLsbD n))) :=
  onMemory_of_memory? h hm _

theorem exec_memSet (v : Option Int) : exec (.memSet k i v) s = .next (s.hostCell m i fun n =>
    (s.setComp k (.memory (m.writeCell m.mar.toNat (setBitAt (m.readCell m.mar.toNat) n v)))).answer .nothing) :=
  onMemory_of_memory? h hm _

end

/-- Settles O33: the index decides first, and the addressed cell's bit is read, or set by the rule of the value. -/
theorem memoryAccessors : Obligations.MemoryAccessors := by
  intro k i v s m h hc hwf
  have hm := State.memory?_eq_some.2 hc
  rw [exec_memGet h hm, exec_memSet h hm]
  refine ⟨fun hi ha => ?_, fun hi => ?_⟩
  · obtain ⟨hbit, hothers⟩ := setBitAt_setsBit (cellsRead m.cells m.mar.toNat) i v hi
    rw [State.hostCell_addressed hi ha, State.hostCell_addressed hi ha]
    exact ⟨rfl, _, _, rfl, cellsRead_cellsWrite hwf.1 _ _, hbit, hothers⟩
  · rw [State.hostCell_of_not_inRange hi, State.hostCell_of_not_inRange hi]
    exact ⟨rfl, rfl⟩

/-- Settles O31: the check comes before every effect of the four accesses. -/
theorem addressWithoutCellFaults : Obligations.AddressWithoutCellFaults := by
  intro s m h
  refine ⟨fun hc ha => ?_, fun k i v hc ha hi => ?_⟩
  · have hm := State.memory?_eq_some.2 hc
    rw [exec_memWrite h hm, exec_memRead h hm, State.withCell_fault hm ha, State.withCell_fault hm ha,
      State.raise_fault_of_none s _ h]
    exact ⟨rfl, rfl⟩
  · have hm := State.memory?_eq_some.2 hc
    rw [exec_memGet h hm, exec_memSet h hm, State.hostCell_fault h hi ha, State.hostCell_fault h hi ha]
    exact ⟨rfl, rfl⟩

/-! ### The cell handler (R152, R155) -/

theorem State.cellHandler_idle {s : State} {k : Nat} {m : Memory} (hm : s.memory? k = some m)
    (hw : lineAsserted s.cbus m.cfg.writeIndex = false) (hr : lineAsserted s.cbus m.cfg.readIndex = false) :
    s.cellHandler k = s := by
  simp [State.cellHandler, hm, hw, hr]

theorem State.cellHandler_fault {s : State} {k : Nat} {m : Memory} (hm : s.memory? k = some m)
    (hacc : (lineAsserted s.cbus m.cfg.writeIndex || lineAsserted s.cbus m.cfg.readIndex) = true)
    (ha : m.cfg.size ≤ m.mar.toNat) : s.cellHandler k = s.raise (.invalidMemoryAddress m.mar.toNat) := by
  simp only [State.cellHandler, hm, State.asserted, hacc, if_true]
  exact State.withCell_fault hm ha _

/-- At an address with a cell the two actions follow each other, each gated by its line. -/
theorem State.cellHandler_addressed {s : State} {k : Nat} {m : Memory} (hm : s.memory? k = some m)
    (ha : m.mar.toNat < m.cfg.size) : s.cellHandler k =
      if lineAsserted s.cbus m.cfg.readIndex
      then (if lineAsserted s.cbus m.cfg.writeIndex then s.storeCell k else s).fetchCell k
      else if lineAsserted s.cbus m.cfg.writeIndex then s.storeCell k else s := by
  simp only [State.cellHandler, hm, State.asserted]
  split
  · exact State.withCell_addressed hm ha _
  · rename_i hnone
    obtain ⟨hw, hr⟩ : lineAsserted s.cbus m.cfg.writeIndex = false ∧ lineAsserted s.cbus m.cfg.readIndex = false := by
      simpa using hnone
    rw [hw, hr]
    rfl

/-- The gated write leaves a Memory whose cells are its own or those after the store. -/
theorem State.gatedStoreCell_eq {s : State} {k : Nat} {m : Memory} (hc : s.comps[k]? = some (.memory m)) (write : Bool) :
    (if write then s.storeCell k else s) = s.setComp k (.memory { m with
      cells := if write then cellsWrite m.cells m.mar.toNat (fromBus m.cfg.width s.dbus) else m.cells }) := by
  cases write with
  | false => exact (State.setComp_self hc).symm
  | true => exact State.storeCell_eq (State.memory?_eq_some.2 hc)

theorem State.gatedFetchCell_eq {s : State} {k : Nat} {m : Memory} (hm : s.memory? k = some m) (read : Bool) :
    (if read then s.fetchCell k else s) =
      { s with dbus := if read then toBus (cellsRead m.cells m.mar.toNat) else s.dbus } := by
  cases read with
  | false => rfl
  | true => exact State.fetchCell_eq hm

/-- Settles O32: nothing without a line, the fault at a bad address, else the write and then the read. -/
theorem cellHandlerWritesThenReads : Obligations.CellHandlerWritesThenReads := by
  intro s k m h hc hwf
  have hm := State.memory?_eq_some.2 hc
  refine ⟨State.cellHandler_idle hm, fun hacc ha => ?_, fun ha => ?_⟩
  · exact (State.cellHandler_fault hm hacc ha).trans (State.raise_fault_of_none s _ h)
  · refine ⟨if lineAsserted s.cbus m.cfg.writeIndex then cellsWrite m.cells m.mar.toNat (fromBus m.cfg.width s.dbus)
      else m.cells, ?_, fun a => ?_⟩
    · rw [State.invoke, State.cellHandler_addressed hm ha, State.gatedStoreCell_eq hc, State.gatedFetchCell_eq
        (State.memory?_eq_some.2 (State.setComp_comps_self s k _ _ hc))]
      rfl
    · cases lineAsserted s.cbus m.cfg.writeIndex with
      | false => simp
      | true =>
        simp only [if_true, true_and]
        exact cellsRead_cellsWrite hwf.1 _ _ a

/-! ### The accessors of an ALU (R168) -/

/-- `ALU.GET` is `REG.GET` of the register it reaches. -/
theorem exec_aluGet (k : Nat) (n : Option AluReg) (i : Int) (s : State) :
    exec (.aluGet k n i) s = exec (.regGet (aluGetTarget k n) i) s := rfl

/-- `ALU.SET` of a named register is that register's `REG.SET`. -/
theorem exec_aluSet_some (k : Nat) (n : AluReg) (i : Int) (v : Option Int) (s : State) :
    exec (.aluSet k (some n) i v) s = exec (.regSet ⟨k, n.part⟩ i v) s := rfl

/-- An ALU has the register that its accessors reach, as wide as itself. -/
theorem exists_reg?_aluGetTarget {s : State} {k : Nat} {u : Alu} (hc : s.comps[k]? = some (.alu u)) (n : Option AluReg) :
    ∃ reg, s.reg? (aluGetTarget k n) = some reg ∧ reg.cfg.width = u.cfg.width := by
  obtain _ | _ | _ | _ := n
  all_goals exact ⟨_, State.reg?_of_comp hc rfl, rfl⟩

/-- Settles O36: the accessors of an ALU are those of the register that they reach. -/
theorem aluAccessors : Obligations.AluAccessors := by
  intro k i v s u h hc
  have hget (n : Option AluReg) {reg : Register} (hr : s.reg? (aluGetTarget k n) = some reg) (hi : inRange i reg.cfg.width) :
      exec (.aluGet k n i) s = .next (s.answer (.bit (reg.value.getLsbD i.toNat))) :=
    (exec_aluGet k n i s).trans (exec_regGet_of_inRange h hr hi)
  refine ⟨fun hi => ⟨hget none (State.reg?_of_comp hc rfl) hi, hget (some .out) (State.reg?_of_comp hc rfl) hi,
    hget (some .a) (State.reg?_of_comp hc rfl) hi, hget (some .b) (State.reg?_of_comp hc rfl) hi⟩, fun hi n => ?_,
    fun n => ?_, live_of_none h _⟩
  · obtain ⟨reg, hr, hwidth⟩ := exists_reg?_aluGetTarget hc n
    rw [exec_aluGet, exec_regGet_of_not_inRange h hr (by rw [hwidth]; exact hi)]
    rfl
  · obtain ⟨reg, hr, -⟩ := exists_reg?_aluGetTarget hc (some n)
    exact ⟨_, (exec_aluSet_some k n i v s).trans (exec_regSet h hr i v), exec_regSet h hr i v⟩

end Sys2Proof.Machine
end

section
/-! Proofs for 47_host.md and 70_reset_and_hazards.md section 1: what the four constructors accept, what a construction leaves,
and the reset state of `REF`. -/

namespace Sys2Proof.Machine

open Sys2Proof

/-! ### What the constructors accept (R72, R130, R181, D9, D22, D27, D33) -/

theorem except_bind_eq_ok_iff {ε α β : Type} {x : Except ε α} {f : α → Except ε β} {r : β} :
    (x >>= f) = .ok r ↔ ∃ a, x = .ok a ∧ f a = .ok r :=
  ⟨except_bind_eq_ok, fun ⟨_, hx, hf⟩ => by rw [hx]; exact hf⟩

theorem checkRefs_eq_ok_iff {r : Refs} {u : Unit} : checkRefs r = .ok u ↔ r = Refs.all := by
  obtain ⟨c, d, b⟩ := r
  cases c <;> cases d <;> cases b <;> simp [checkRefs, Refs.all]

theorem checkWidth_eq_ok_iff {w : Int} {n : Nat} : checkWidth w = .ok n ↔ 1 ≤ w ∧ n = min w.toNat 32 := by
  unfold checkWidth
  split
  · simp
    omega
  · rw [Except.ok.injEq]
    omega

theorem checkSize_eq_ok_iff {w : Int} {n : Nat} : checkSize w = .ok n ↔ 1 ≤ w ∧ n = w.toNat := by
  unfold checkSize
  split
  · simp
    omega
  · rw [Except.ok.injEq]
    omega

theorem checkLine_eq_ok_iff {l : Option Int} {p : Line} : checkLine l = .ok p ↔ lineOk l ∧ p = l.map Int.toNat := by
  cases l with
  | none => simp [checkLine, lineOk, eq_comm]
  | some i =>
    by_cases hi : i < 0
    · simp [checkLine, lineOk, hi]
    · simp [checkLine, lineOk, hi, eq_comm]
      omega

theorem checkSub_eq_ok_iff {i : Int} {n : Nat} : checkSub (some i) = .ok n ↔ (0 ≤ i ∧ i < 32) ∧ n = i.toNat := by
  by_cases hi : 0 ≤ i ∧ i < 32
  · simp [checkSub, hi, eq_comm]
  · simp [checkSub, hi]

theorem pure_eq_ok_iff {α : Type} {a b : α} : (pure a : Except ConfigError α) = .ok b ↔ a = b :=
  Except.ok.injEq a b ▸ Iff.rfl

section
variable {refs : Refs} {w n i : Int} {a b c : Option Int} {o : Option CompCfg}

theorem cfg?_register_eq_ok_iff : (BuildAction.register refs w a b).cfg? = .ok o ↔
    (refs = Refs.all ∧ 1 ≤ w ∧ lineOk a ∧ lineOk b) ∧
    some (.register { width := min w.toNat 32, loadIndex := a.map Int.toNat, driveIndex := b.map Int.toNat }) = o := by
  simp [-bind_pure_comp, BuildAction.cfg?, except_bind_eq_ok_iff, checkRefs_eq_ok_iff, checkWidth_eq_ok_iff,
    checkLine_eq_ok_iff, pure_eq_ok_iff, and_assoc]

theorem cfg?_counter_eq_ok_iff : (BuildAction.counter refs w a b c).cfg? = .ok o ↔
    (refs = Refs.all ∧ 1 ≤ w ∧ lineOk a ∧ lineOk b ∧ lineOk c) ∧
    some (.counter { width := min w.toNat 32, loadIndex := a.map Int.toNat, incrementIndex := b.map Int.toNat,
                     driveIndex := c.map Int.toNat }) = o := by
  simp [-bind_pure_comp, BuildAction.cfg?, except_bind_eq_ok_iff, checkRefs_eq_ok_iff, checkWidth_eq_ok_iff,
    checkLine_eq_ok_iff, pure_eq_ok_iff, and_assoc]

theorem cfg?_memory_eq_ok_iff : (BuildAction.memory refs w n a b c).cfg? = .ok o ↔
    (refs = Refs.all ∧ 1 ≤ w ∧ 1 ≤ n ∧ lineOk a ∧ lineOk b ∧ lineOk c) ∧
    some (.memory { width := min w.toNat 32, size := n.toNat, addressLoadIndex := a.map Int.toNat,
                    readIndex := b.map Int.toNat, writeIndex := c.map Int.toNat }) = o := by
  simp [-bind_pure_comp, BuildAction.cfg?, except_bind_eq_ok_iff, checkRefs_eq_ok_iff, checkWidth_eq_ok_iff,
    checkSize_eq_ok_iff, checkLine_eq_ok_iff, pure_eq_ok_iff, and_assoc]

theorem cfg?_alu_eq_ok_iff : (BuildAction.alu refs w a b c (some i)).cfg? = .ok o ↔
    (refs = Refs.all ∧ 1 ≤ w ∧ lineOk a ∧ lineOk b ∧ lineOk c ∧ 0 ≤ i ∧ i < 32) ∧
    some (.alu { width := min w.toNat 32, aLoadIndex := a.map Int.toNat, bLoadIndex := b.map Int.toNat,
                 outDriveIndex := c.map Int.toNat, subIndex := i.toNat }) = o := by
  simp [-bind_pure_comp, BuildAction.cfg?, except_bind_eq_ok_iff, checkRefs_eq_ok_iff, checkWidth_eq_ok_iff,
    checkLine_eq_ok_iff, checkSub_eq_ok_iff, pure_eq_ok_iff, and_assoc]

end

theorem State.build_of_error {a : BuildAction} {e : ConfigError} (h : a.cfg? = .error e) (s : State) :
    s.build a = .error e := by
  simp only [State.build, h]

/-- A call whose configuration is made exactly from good parameters is accepted exactly with them. -/
theorem State.decides_of_cfg? {a : BuildAction} {good : Prop} {c : CompCfg}
    (h : ∀ o, a.cfg? = .ok o ↔ good ∧ some c = o) (s : State) : s.decides a good c := by
  refine ⟨fun hgood => ?_, fun hbad => ?_⟩
  · simp only [State.build, (h (some c)).2 ⟨hgood, rfl⟩]
  · cases ha : a.cfg? with
    | error e => exact ⟨e, State.build_of_error ha s⟩
    | ok o => exact absurd ((h o).1 ha).1 hbad

theorem except_bind_error {ε α β : Type} (e : ε) (f : α → Except ε β) : (Except.error e >>= f) = .error e := rfl

/-- A missing reference is found before anything else of the call is looked at. -/
theorem cfg?_of_checkRefs_error {r : Refs} {e : ConfigError} (h : checkRefs r = .error e) (w n : Int)
    (a b c d : Option Int) :
    (BuildAction.register r w a b).cfg? = .error e ∧ (BuildAction.counter r w a b c).cfg? = .error e ∧
    (BuildAction.memory r w n a b c).cfg? = .error e ∧ (BuildAction.alu r w a b c d).cfg? = .error e := by
  simp only [BuildAction.cfg?, h, except_bind_error, and_self]

theorem exists_build_alu_none_eq_error (s : State) (refs : Refs) (w : Int) (a b c : Option Int) :
    ∃ e, s.build (.alu refs w a b c none) = .error e := by
  cases ha : (BuildAction.alu refs w a b c none).cfg? with
  | error e => exact ⟨e, State.build_of_error ha s⟩
  | ok o => simp [BuildAction.cfg?, except_bind_eq_ok_iff, checkSub] at ha

theorem lineAsserted_of_ge {p : Nat} (hp : 32 ≤ p) (v : Word) : lineAsserted v (some p) = false := by
  simp [lineAsserted, Config.busLines, Nat.not_lt.2 hp]

/-- Settles O57: each constructor by what its configuration is made from, and the missing references by the first check. -/
theorem constructorsRefuseAndClamp : Obligations.ConstructorsRefuseAndClamp := by
  refine ⟨fun s refs w n a b c d => ⟨State.decides_of_cfg? (fun o => cfg?_register_eq_ok_iff) s,
    State.decides_of_cfg? (fun o => cfg?_counter_eq_ok_iff) s, State.decides_of_cfg? (fun o => cfg?_memory_eq_ok_iff) s,
    fun i => State.decides_of_cfg? (fun o => cfg?_alu_eq_ok_iff) s, exists_build_alu_none_eq_error s refs w a b c,
    fun _ _ _ _ _ _ r e hre => ?_⟩, fun p v hp => lineAsserted_of_ge hp v⟩
  have hrefs : checkRefs r = .error e := by
    simp only [List.mem_cons, Prod.mk.injEq, List.not_mem_nil, or_false] at hre
    obtain ⟨rfl, rfl⟩ | ⟨rfl, rfl⟩ | ⟨rfl, rfl⟩ := hre <;> rfl
  obtain ⟨hreg, hcnt, hmem, halu⟩ := cfg?_of_checkRefs_error hrefs w n a b c d
  exact ⟨State.build_of_error hreg s, State.build_of_error hcnt s, State.build_of_error hmem s,
    State.build_of_error halu s⟩

/-! ### What a construction leaves (R28, R38, R200) -/

/-- A subscriber of a wiring names what the circuit has. -/
theorem fits_of_mem_handlers {wir : Wiring} {h : Subscriber} (hh : h ∈ Wiring.handlers wir) :
    h.fits wir.shape = true := by
  rw [Wiring.handlers, handlersFrom_eq_flatMap_zipIdx] at hh
  obtain ⟨p, hp, hh⟩ := List.mem_flatMap.1 hh
  refine (place?_and_fits_of_mem_compHandlers hh).2 _ ?_
  simp [Shape.has, Wiring.shape, getElem?_of_mem_zipIdx hp]

/-- What holds of a circuit after the actions `done` of its construction. -/
structure Built (n : Nat) (done : List BuildAction) (s : State) : Prop where
  comps : s.comps = s.wiring.map Component.fresh
  legal : ∀ c ∈ s.wiring, c.legal = true
  phase : s.clk.phase = .low
  running : s.clk.running = false
  cycleState : s.clk.cycleState = .idle
  interval : s.clk.interval = n
  dbus : s.dbus = 0#32
  cbus : s.cbus = 0#32
  fault : s.fault = none
  handlers : s.clk.rising.filter (fun h => (observerOf h).isNone) = Wiring.handlers s.wiring
  observers : s.clk.rising.filterMap observerOf = done.filterMap BuildAction.rising?
  falling : s.clk.falling = done.filterMap BuildAction.falling?

theorem observerOf_of_mem_compHandlers {c : CompCfg} {k : Nat} {h : Subscriber} (hh : h ∈ c.handlers k) :
    observerOf h = none := by
  obtain ⟨hplace, -⟩ := place?_and_fits_of_mem_compHandlers hh
  cases h with
  | observer cb => cases hplace
  | _ => rfl

theorem handlers_append_singleton (wir : Wiring) (c : CompCfg) :
    Wiring.handlers (wir ++ [c]) = Wiring.handlers wir ++ c.handlers wir.length := by
  rw [Wiring.handlers, handlersFrom_append, Nat.zero_add]
  simp [Wiring.handlersFrom, Wiring.handlers]

theorem Built.empty (n : Nat) : Built n [] (State.empty n) :=
  ⟨rfl, fun _ hc => (by cases hc), rfl, rfl, rfl, rfl, rfl, rfl, rfl, rfl, rfl, rfl⟩

section
variable {n : Nat} {done : List BuildAction} {s : State} (h : Built n done s)
include h

theorem Built.addComponent {a : BuildAction} (hr : a.rising? = none) (hf : a.falling? = none) {c : CompCfg}
    (hc : c.legal = true) : Built n (done ++ [a]) (s.addComponent c) where
  comps := by
    rw [State.addComponent_wiring, List.map_append, ← h.comps]
    rfl
  legal d hd := by
    rw [State.addComponent_wiring] at hd
    rcases List.mem_append.1 hd with hd | hd
    · exact h.legal d hd
    · rwa [List.mem_singleton.1 hd]
  phase := h.phase
  running := h.running
  cycleState := h.cycleState
  interval := h.interval
  dbus := h.dbus
  cbus := h.cbus
  fault := h.fault
  handlers := by
    have hlen : s.comps.length = s.wiring.length := by rw [State.wiring, List.length_map]
    have hcore : (c.handlers s.wiring.length).filter (fun x => (observerOf x).isNone) = c.handlers s.wiring.length :=
      List.filter_eq_self.2 fun x hx => by rw [observerOf_of_mem_compHandlers hx]; rfl
    rw [State.addComponent_wiring, handlers_append_singleton, ← h.handlers, ← hcore, ← List.filter_append, ← hlen]
    rfl
  observers := by
    have hnone : (c.handlers s.comps.length).filterMap observerOf = [] :=
      List.filterMap_eq_nil_iff.2 fun x hx => observerOf_of_mem_compHandlers hx
    rw [List.filterMap_append, List.filterMap_cons_none hr, List.filterMap_nil, ← h.observers, ← hnone,
      ← List.filterMap_append]
    rfl
  falling := by
    rw [List.filterMap_append, List.filterMap_cons_none hf, List.filterMap_nil, List.append_nil]
    exact h.falling

theorem Built.addRising (cb : Nat) :
    Built n (done ++ [.addRising cb]) { s with clk := { s.clk with rising := s.clk.rising ++ [.observer cb] } } where
  comps := h.comps
  legal := h.legal
  phase := h.phase
  running := h.running
  cycleState := h.cycleState
  interval := h.interval
  dbus := h.dbus
  cbus := h.cbus
  fault := h.fault
  handlers := by
    rw [List.filter_append, h.handlers]
    exact List.append_nil _
  observers := by
    rw [List.filterMap_append, List.filterMap_append, h.observers]
    rfl
  falling := by
    rw [List.filterMap_append]
    exact h.falling.trans (List.append_nil _).symm

theorem Built.addFalling (cb : Nat) :
    Built n (done ++ [.addFalling cb]) { s with clk := { s.clk with falling := s.clk.falling ++ [cb] } } where
  comps := h.comps
  legal := h.legal
  phase := h.phase
  running := h.running
  cycleState := h.cycleState
  interval := h.interval
  dbus := h.dbus
  cbus := h.cbus
  fault := h.fault
  handlers := h.handlers
  observers := by
    rw [List.filterMap_append]
    exact h.observers.trans (List.append_nil _).symm
  falling := by
    rw [List.filterMap_append, h.falling]
    rfl

end

theorem built_of_construct {n : Nat} {plan : List BuildAction} {s : State} (h : construct n plan = .ok s) :
    Built n plan s := by
  refine construct_induction (Built.empty n) (fun done u v a hu hv => ?_) h
  obtain ⟨c, -, hc, hr, hf, rfl⟩ | ⟨cb, rfl, rfl⟩ | ⟨cb, rfl, rfl⟩ := State.build_eq_ok hv
  · exact hu.addComponent hr hf hc
  · exact hu.addRising cb
  · exact hu.addFalling cb

theorem Component.reg?_fresh_value {c : CompCfg} {p : RegPart} {reg : Register}
    (h : (Component.fresh c).reg? p = some reg) : reg.value = 0#reg.cfg.width := by
  cases p with
  | whole =>
    cases c with
    | register x => cases h; rfl
    | _ => cases h
  | mar =>
    cases c with
    | memory m => cases h; rfl
    | _ => cases h
  | a | b | out =>
    cases c with
    | alu u => cases h; rfl
    | _ => cases h

theorem Component.ok_fresh {c : CompCfg} (hc : c.legal = true) : (Component.fresh c).ok := by
  cases c with
  | memory c =>
    refine ⟨hc, fun m hm => ?_⟩
    cases hm
    exact ⟨⟨List.Pairwise.nil, by simp⟩, by simp⟩
  | _ => exact ⟨hc, fun m hm => by cases hm⟩

section
variable {n : Nat} {done : List BuildAction} {s : State} (h : Built n done s)
include h

theorem Built.comps_getElem? {k : Nat} {c : Component} (hc : s.comps[k]? = some c) :
    ∃ cfg ∈ s.wiring, c = Component.fresh cfg := by
  rw [h.comps, List.getElem?_map, Option.map_eq_some_iff] at hc
  obtain ⟨cfg, hcfg, rfl⟩ := hc
  exact ⟨cfg, List.mem_of_getElem? hcfg, rfl⟩

theorem Built.reg?_value {r : RegRef} {reg : Register} (hr : s.reg? r = some reg) : reg.value = 0#reg.cfg.width := by
  obtain ⟨c, hc, hreg⟩ := State.reg?_eq_some.1 hr
  obtain ⟨cfg, -, rfl⟩ := h.comps_getElem? hc
  exact Component.reg?_fresh_value hreg

theorem Built.counter?_value {k : Nat} {c : Counter} (hc : s.counter? k = some c) : c.value = 0#c.cfg.width := by
  obtain ⟨cfg, -, hcfg⟩ := h.comps_getElem? (State.counter?_eq_some.1 hc)
  cases cfg with
  | counter d => cases hcfg; rfl
  | _ => cases hcfg

theorem Built.memory?_cells {k : Nat} {m : Memory} (hm : s.memory? k = some m) (a : Nat) :
    cellsRead m.cells a = 0#m.cfg.width := by
  obtain ⟨cfg, -, hcfg⟩ := h.comps_getElem? (State.memory?_eq_some.1 hm)
  cases cfg with
  | memory d => cases hcfg; rfl
  | _ => cases hcfg

theorem Built.inv (h2 : 2 ≤ n) (h5000 : n ≤ 5000) : s.Inv where
  comps := by
    rw [h.comps]
    intro c hc
    obtain ⟨cfg, hcfg, rfl⟩ := List.mem_map.1 hc
    exact Component.ok_fresh (h.legal cfg hcfg)
  rising x hx := by
    cases ho : observerOf x with
    | none => exact fits_of_mem_handlers (h.handlers ▸ List.mem_filter.2 ⟨hx, by rw [ho]; rfl⟩)
    | some cb =>
      cases x with
      | observer cb => rfl
      | _ => cases ho
  interval := by
    rw [h.interval]
    exact ⟨h2, h5000⟩
  pending hp := absurd h.cycleState hp
  pendingRise hp := by cases h.cycleState.symm.trans hp

end

theorem construct_refPlan : construct Config.clockIntervalInit refPlan = .ok State.reset := rfl

/-- Settles O56: what every action of the composition root keeps holds of what it builds. -/
theorem constructionYieldsAnInvariantState : Obligations.ConstructionYieldsAnInvariantState := by
  refine ⟨fun n plan s h2 h5000 hbuild => ?_, construct_refPlan⟩
  have h := built_of_construct hbuild
  refine ⟨h.inv h2 h5000, h.phase, h.running, h.cycleState, h.interval, h.fault, h.dbus, h.cbus, h.comps,
    fun r reg hr => h.reg?_value hr, fun k c hc => h.counter?_value hc, fun k m a hm => h.memory?_cells hm a,
    (List.filter_congr fun x _ => ?_).trans h.handlers, h.observers, h.falling⟩
  cases x <;> rfl

/-! ### The reset state of `REF` (R38, R78) -/

theorem built_reset : Built Config.clockIntervalInit refPlan State.reset := built_of_construct construct_refPlan

theorem clockIntervalInit_bounds : 2 ≤ Config.clockIntervalInit ∧ Config.clockIntervalInit ≤ 5000 := by
  have hlt := Config.clockIntervalSeed.isLt
  simp only [Config.clockIntervalInit, Config.intervalMin]
  omega

/-- Settles O53: the fields are evaluated, and the zero values are those of every construction. -/
theorem resetStateIsAsSpecified : Obligations.ResetStateIsAsSpecified :=
  ⟨rfl, rfl, rfl, clockIntervalInit_bounds.1, clockIntervalInit_bounds.2, rfl, rfl, rfl, rfl, rfl, rfl,
    fun _ _ hr => built_reset.reg?_value hr, fun _ _ hc => built_reset.counter?_value hc,
    fun _ _ a hm => built_reset.memory?_cells hm a⟩

/-- Settles O54: the reset state is a construction's, with an interval in the bounds. -/
theorem resetHasTheInvariant : Obligations.ResetHasTheInvariant :=
  built_reset.inv clockIntervalInit_bounds.1 clockIntervalInit_bounds.2

end Sys2Proof.Machine
end
